-- ==== Sys2Proof/Word.lean ====
section
/-! DEFINITION. The words of FT8ENC: bytes, command words, tones and packed byte buffers (00_scope.md section 5,
20_memory.md R33, 30_encoding.md R45). -/

namespace Sys2Proof

/-- One byte of the register port (R33). -/
abbrev Byte := BitVec 8

/-- One command word, moved as a unit (R33, R45). -/
abbrev Word := BitVec 16

/-- One tone, an unsigned value in 0..7 (R15). -/
abbrev Tone := BitVec 3

/-- A packed buffer of `n` bytes, byte 0 first (R30). -/
abbrev Buffer (n : Nat) := Vector Byte n

end Sys2Proof
end

