-- ==== Sys2Proof/Syntax.lean ====
section
/-! DEFINITION. The four commands of FT8ENC, one constructor per row of spec/opcode_table.json (30_encoding.md R47). -/

namespace Sys2Proof

/-- A command. The operand of `crc` is the bit count `n` of R46: a count, so a `Nat`; `Instr.wellFormed` bounds it by what
the eight operand bits hold. -/
inductive Instr where
  /-- `CRC n` (R63): checksum of the first `n` stream bits of `MSG`. -/
  | crc (n : Nat)
  /-- `LDPC` (R75): encode the information word in `MSG` into `CW`. -/
  | ldpc
  /-- `MAP` (R87): tone sequence of the codeword in `CW`. -/
  | map
  /-- `ENCODE` (R88): payload and type to tones, the source's entry point. -/
  | encode
  deriving DecidableEq, Repr

end Sys2Proof
end

