-- ==== Sys2Proof/WellFormed.lean ====
section
/-! DEFINITION. Which commands have an encoding (30_encoding.md R45, R46). -/

namespace Sys2Proof

/-- The operand of `CRC` is an unsigned 8-bit value; 89 to 255 are well-formed encodings that raise `CRC_LEN` when issued
(R46, R101), and an assembler refuses a larger operand (R51). The other commands have no operand. -/
def Instr.wellFormed : Instr → Bool
  | .crc n => decide (n ≤ 255)
  | .ldpc => true
  | .map => true
  | .encode => true

end Sys2Proof
end

