-- ==== Sys2Proof/Decode.lean ====
section
/-! DEFINITION. The decoder and the encoder, both from the opcode map of 30_encoding.md R47 and the format of R45. -/

namespace Sys2Proof

/-- Why a command word is illegal (R49, in the order the rule lists the cases). -/
inductive Reject where
  /-- `op` is 0x0 or 0x5 to 0xF. -/
  | opUndefined
  /-- `zero` is not 0000. -/
  | zeroFieldSet
  /-- `op` is 0x2, 0x3 or 0x4 and `n` is not 0. -/
  | operandSet
  deriving DecidableEq, Repr

/-- Field `op`, bits 15:12 (R45). -/
def opField (w : Word) : BitVec 4 := w.extractLsb' 12 4

/-- Field `zero`, bits 11:8 (R45). -/
def zeroField (w : Word) : BitVec 4 := w.extractLsb' 8 4

/-- Field `n`, bits 7:0 (R45, R46). -/
def nField (w : Word) : BitVec 8 := w.extractLsb' 0 8

/-- The name of what is wrong with a word that matches no row (R49). -/
def rejectReason (w : Word) : Reject :=
  if opField w = 0x0#4 ∨ 0x5#4 ≤ opField w then .opUndefined
  else if zeroField w ≠ 0#4 then .zeroFieldSet
  else .operandSet

/-- A word selects the row whose `match` it equals under the row's `mask` (R47); every other word is illegal (R49). No state
changes how a word is decoded (R50). -/
def decode (w : Word) : Except Reject Instr :=
  if w &&& 0xFF00#16 = 0x1000#16 then .ok (.crc (nField w).toNat)
  else if w &&& 0xFFFF#16 = 0x2000#16 then .ok .ldpc
  else if w &&& 0xFFFF#16 = 0x3000#16 then .ok .map
  else if w &&& 0xFFFF#16 = 0x4000#16 then .ok .encode
  else .error (rejectReason w)

/-- The command word of a command: `op`, `zero` and `n`, most significant part first (R45, R47). -/
def encode : Instr → Word
  | .crc n => 0x1#4 ++ 0x0#4 ++ BitVec.ofNat 8 n
  | .ldpc => 0x2#4 ++ 0x0#4 ++ 0x00#8
  | .map => 0x3#4 ++ 0x0#4 ++ 0x00#8
  | .encode => 0x4#4 ++ 0x0#4 ++ 0x00#8

/-- The decoder on an opcode-table row's bits: the command port moves one 16-bit word as a unit (R33), so the word is the
number itself. -/
def decodeTableWord (nbits w : Nat) : Option Instr :=
  match decode (BitVec.ofNat 16 (w % 2 ^ nbits)) with
  | .ok i => some i
  | .error _ => none

end Sys2Proof
end

