-- ==== Sys2Proof/Config.lean ====
section
/-! DEFINITION. What is fixed for the machine: the parameters of 00_scope.md R6, the open parameters of R7, and the free
values the spec leaves open. A free value is an opaque constant with no body: nothing can evaluate it or prove a value of it. -/

namespace Sys2Proof.Config

/-! ### Fixed parameters (R6) -/

/-- `NPAY`: payload bits. -/
abbrev nPay : Nat := 72
/-- `NTYPE`: type-field bits. -/
abbrev nType : Nat := 3
/-- `WCRC`: checksum width in bits. -/
abbrev wCrc : Nat := 12
/-- `POLY` (R18): the generator polynomial without its leading coefficient. -/
abbrev poly : BitVec 12 := 0xC06#12
/-- `NCRCIN`: how many leading buffer bits the checksum of a frame covers. -/
abbrev nCrcIn : Nat := 76
/-- `K`: information-word bits. -/
abbrev k : Nat := 87
/-- `M`: parity bits. -/
abbrev m : Nat := 87
/-- `N`: codeword bits. -/
abbrev n : Nat := 174
/-- `NMSGBYTES`: bytes of the message buffer. -/
abbrev nMsgBytes : Nat := 11
/-- `NCWBYTES`: bytes of the codeword buffer. -/
abbrev nCwBytes : Nat := 22
/-- `NSYNC`: symbols per synchronisation block. -/
abbrev nSync : Nat := 7
/-- `NDATA`: data symbols per data block. -/
abbrev nData : Nat := 29
/-- `ND`: data symbols per frame. -/
abbrev nd : Nat := 58
/-- `NN`: symbols per frame. -/
abbrev nn : Nat := 79
/-- `BPS`: codeword bits per data symbol. -/
abbrev bps : Nat := 3
/-- `COSTAS` (R19): the synchronisation block. -/
def costas : Vector Tone 7 := #v[2, 5, 6, 0, 4, 1, 3]
/-- `SYNCPOS`: the tone index at which each synchronisation block starts. -/
abbrev syncPos : List Nat := [0, 36, 72]
/-- `CRC_SHIFT`: left shift applied to the checksum before it is packed (the spec's decision D5; log 11). -/
abbrev crcShift : Nat := 1
/-- `CRCMAX`: the largest bit count the `CRC` command accepts (D8). -/
abbrev crcMax : Nat := 88

/-! ### Open parameters (R7) -/

/-- `GEN` (R20): row `i` is an 87-bit mask over the information word, stream bit 0 its most significant bit. Its values are
not in the source (N2): any 87 × 87 bit matrix. Log 8. -/
opaque gen : Fin 87 → BitVec 87

/-- `COLORDER` (R21): a bijection on 0..173 from intermediate-vector position to codeword position. Its values are not in
the source (N3). Log 8. -/
opaque colOrder : Equiv.Perm (Fin 174)

/-- What `LAT(op)` (R7, R117) and the host's own pace come to at one issue: how many host actions fall between the issue of
this command and its completion. A fresh finite number at every draw. Log 3. -/
opaque latency : Instr → Nat → Nat

/-! ### Free values: the contents of a register that the spec calls unspecified, after a reset (R25) or as the result of a
command whose read set was not written (R112), and a byte read while busy (R38) -/

/-- An unspecified content of `MSG[b]`, at this draw. Log 6, 9. -/
opaque freeMsg : Nat → Nat → Byte
/-- An unspecified content of `TYPE`, at this draw. Log 6. -/
opaque freeType : Nat → BitVec 3
/-- An unspecified content of `REM`, at this draw. Log 6, 9. -/
opaque freeRem : Nat → BitVec 12
/-- An unspecified content of `CW[b]`, before the hardwired bits are taken out, at this draw. Log 6, 9. -/
opaque freeCw : Nat → Nat → Byte
/-- An unspecified content of `TONE[j]`, at this draw. Log 6, 9. -/
opaque freeTone : Nat → Nat → Tone
/-- `CMDLATCH` after the reset of this draw (R25: undefined). Log 7. -/
opaque resetLatch : Nat → Word
/-- The byte `RD a`, `a` other than 0x0C, returns while `BUSY` = 1, at this draw (R38, U4: any byte; two may differ). Log 10. -/
opaque busyByte : Nat → Byte

end Sys2Proof.Config
end

