-- ==== Sys2Proof/Machine/State.lean ====
section
/-! DEFINITION. The state of one FT8ENC instance and of the host that drives it, the reasons a step can stop, and reset
(10_state.md R10 to R17 and R25, 70_reset_and_hazards.md R110). -/

namespace Sys2Proof.Machine

/-- `STATUS.ERRCODE` (R16, R96). -/
inductive ErrCode where
  /-- 0: no error has been recorded since reset. -/
  | none
  /-- 1: a command word that matches no row, issued while idle (R97). -/
  | illegalCmd
  /-- 2: `CRC n` with n > 88, issued while idle (R98). -/
  | crcLen
  /-- 3: a `CMD` or `WR` while `BUSY` = 1 (R99). -/
  | busyViolation
  deriving DecidableEq, Repr

/-- What the host can do to the block (20_memory.md R32), and the directive that waits for idle (30_encoding.md R52). -/
inductive HostAction where
  /-- `WR a, v`: write byte `v` to register address `a`. -/
  | wr (a v : Byte)
  /-- `RD a`: read the byte at register address `a`. -/
  | rd (a : Byte)
  /-- `CMD w`: present the command word `w`. -/
  | cmd (w : Word)
  /-- `WAIT`: repeat `RD 0x0C` until bit 0 of the byte read is 0; the bytes read are not kept. -/
  | wait
  /-- `RESET`: assert the `rst` pin. -/
  | reset
  deriving DecidableEq, Repr

/-- The state. The first nine fields are R10's state of the block. The rest are the model's own: the record of what has been
written since reset that R112 asks about, the host's side, and the source of free values (log 24, 2, 3, 18). -/
structure State where
  /-- `MSG`, the message buffer (R11). -/
  msg : Buffer 11
  /-- `TYPE`, the type field (R12). -/
  typeField : BitVec 3
  /-- `REM`, the checksum result (R13). -/
  rem : BitVec 12
  /-- `CW`, the codeword buffer; stream bits 174 and 175 are hardwired 0 (R14). -/
  cw : Buffer 22
  /-- `TONE`, the tone sequence (R15). -/
  tone : Vector Tone 79
  /-- `STATUS.BUSY` (R16). -/
  busy : Bool
  /-- `STATUS.ERR` (R16). -/
  err : Bool
  /-- `STATUS.ERRCODE` (R16). -/
  errCode : ErrCode
  /-- `CMDLATCH`, the accepted command word (R17). -/
  cmdLatch : Word
  /-- Which bytes of `MSG` have been written since reset, by the host or by a command (R112). Log 24. -/
  msgWritten : Vector Bool 11
  /-- Whether `TYPE` has been written since reset (R112). Log 24. -/
  typeWritten : Bool
  /-- Which bytes of `CW` have been written since reset, by the host or by a command (R112). Log 24. -/
  cwWritten : Vector Bool 22
  /-- The host actions not yet performed, next one first (R32, R51). Log 2. -/
  script : List HostAction
  /-- The bytes the script's reads have returned, oldest first (R52, R119). Log 2. -/
  results : List Byte
  /-- How many more host actions fall before the running command completes (R117). Log 3. -/
  remaining : Nat
  /-- How many free values have been drawn. Log 18. -/
  draws : Nat
  deriving DecidableEq, Repr

/-- Why a step stops with a fault. -/
inductive Fault where
  /-- Raised by `step` when `BUSY` = 1 and `CMDLATCH` holds no command. R17 gives the latch only accepted words while busy, so
  no run reaches such a state; the spec gives it no behaviour. Safe: the machine stops where the spec says nothing (log 14). -/
  | latchUndefined
  deriving DecidableEq, Repr

/-- Why a step is refused. -/
inductive Refusal where
  /-- Raised by `exec` for a command that has no meaning yet. Safe. No arm raises it: all four commands have their meaning. -/
  | notModelled (mnemonic : String)
  deriving DecidableEq, Repr

/-- What a step answers. -/
abbrev Outcome := Host.Outcome State Fault Refusal

/-- The bits of `CW[b]` that exist: bits 1:0 of `CW[21]` are hardwired 0 (R14). -/
def cwMask (b : Nat) : Byte := if b = 21 then 0xFC#8 else 0xFF#8

/-- An unspecified codeword buffer: free bytes, the hardwired bits 0 (R14). -/
def freeCodeword (d : Nat) : Buffer 22 := Vector.ofFn fun b => Config.freeCw d b &&& cwMask b

/-- An unspecified tone sequence. -/
def freeTones (d : Nat) : Vector Tone 79 := Vector.ofFn fun j => Config.freeTone d j

/-- The state after the reset of draw `d` (R25, R110): the control register is 0, hardwired bits are 0, and every data
register and `CMDLATCH` hold a free value of that draw (log 6, 7), and nothing has been written since. -/
def State.afterReset (d : Nat) (script : List HostAction) (results : List Byte) : State where
  msg := Vector.ofFn fun b => Config.freeMsg d b
  typeField := Config.freeType d
  rem := Config.freeRem d
  cw := freeCodeword d
  tone := freeTones d
  busy := false
  err := false
  errCode := .none
  cmdLatch := Config.resetLatch d
  msgWritten := Vector.replicate 11 false
  typeWritten := false
  cwWritten := Vector.replicate 22 false
  script := script
  results := results
  remaining := 0
  draws := d + 1

/-- The machine right after reset: draw 0, no host action pending, no byte read yet. A host script is put in `script` from
outside (log 17). -/
def State.reset : State := State.afterReset 0 [] []

end Sys2Proof.Machine
end

