-- ==== Sys2Proof/Machine/Flags.lean ====
section
/-! DEFINITION. The status register and its pins (10_state.md R16, 20_memory.md R32). No command sets a flag from the data it
computes (R16), so these are all the flag computations there are. -/

namespace Sys2Proof.Machine

/-- The two bits of `ERRCODE` (R16, R96). -/
def ErrCode.bits : ErrCode → BitVec 2
  | .none => 0#2
  | .illegalCmd => 1#2
  | .crcLen => 2#2
  | .busyViolation => 3#2

/-- `STATUS` as the host reads it: bit 0 `BUSY`, bit 1 `ERR`, bits 3:2 `ERRCODE`, bits 7:4 hardwired 0 (R16). -/
def statusByte (s : State) : Byte := 0#4 ++ s.errCode.bits ++ BitVec.ofBool s.err ++ BitVec.ofBool s.busy

/-- The output pin `busy`, a level that mirrors `STATUS.BUSY` (R32, R102). -/
def busyPin (s : State) : Bool := s.busy

/-- The output pin `err`, a level that mirrors `STATUS.ERR` (R32, R102). -/
def errPin (s : State) : Bool := s.err

end Sys2Proof.Machine
end

