-- ==== Sys2Proof/Machine/Operands.lean ====
section
/-! DEFINITION. The operand forms: stream bits of packed buffers (20_memory.md R30, R43), the views `INFO` and `PAYLOAD`
(10_state.md R27), the leading-bits operand of `CRC n` (30_encoding.md R46). -/

namespace Sys2Proof.Machine

/-- `getbit(B, i)`: stream bit `i` lives in byte `i div 8` at the bit of weight 2^(7 - (i mod 8)) (R30). -/
def getBit {len : Nat} (b : Buffer len) (i : Nat) : Bool := (b.getD (i / 8) 0#8).getLsbD (7 - i % 8)

/-- `setbit(B, i)`: set stream bit `i`, leave every other bit (R43). -/
def setBit {len : Nat} (b : Buffer len) (i : Nat) : Buffer len :=
  b.setIfInBounds (i / 8) (b.getD (i / 8) 0#8 ||| (1#8 <<< (7 - i % 8)))

/-- The buffer with every bit 0. -/
def zeroBuffer (len : Nat) : Buffer len := Vector.replicate len 0#8

/-- `B{0..count-1}` as a bit sequence, first bit first: the source operand of `CRC n` (R63). -/
def leadingBits {len : Nat} (b : Buffer len) (count : Nat) : List Bool := (List.range count).map (getBit b)

/-- `INFO` = `MSG{0..86}` as an 87-bit value, stream bit 0 most significant (R27); `MSG{87}` is no part of it (R78). -/
def infoWord (msg : Buffer 11) : BitVec 87 := BitVec.ofFnBE fun j => getBit msg j

/-- `PAYLOAD` = `MSG{0..71}` as a 72-bit value, stream bit 0 most significant (R27). -/
def payloadWord (msg : Buffer 11) : BitVec 72 := BitVec.ofFnBE fun j => getBit msg j

end Sys2Proof.Machine
end

