-- ==== Sys2Proof/Machine/Ops.lean ====
section
/-! DEFINITION. The shared operations: the register port (20_memory.md R34 to R37), recording an error (60_exceptions.md R100),
issue and completion (30_encoding.md R48), reset (70_reset_and_hazards.md R110). -/

namespace Sys2Proof.Machine

/-! ### The register port -/

/-- What an address of the register port names (R34). -/
inductive Port where
  /-- 0x00 to 0x0A: `MSG[b]`, read and write. -/
  | msg (b : Fin 11)
  /-- 0x0B: `TYPE`, read and write. -/
  | typeField
  /-- 0x0C: `STATUS`, read only. -/
  | status
  /-- 0x0E: `REM[11:8]`, read only. -/
  | remHigh
  /-- 0x0F: `REM[7:0]`, read only. -/
  | remLow
  /-- 0x10 to 0x25: `CW[b]`, read and write. -/
  | cw (b : Fin 22)
  /-- 0x30 to 0x7E: `TONE[j]`, read only. -/
  | tone (j : Fin 79)
  /-- 0x0D, 0x26 to 0x2F, 0x7F to 0xFF. -/
  | reserved
  deriving DecidableEq, Repr

/-- The register address map (R34). -/
def portOf (a : Byte) : Port :=
  if h : a.toNat < 0x0B then .msg ⟨a.toNat, h⟩
  else if a.toNat = 0x0B then .typeField
  else if a.toNat = 0x0C then .status
  else if a.toNat = 0x0E then .remHigh
  else if a.toNat = 0x0F then .remLow
  else if h : 0x10 ≤ a.toNat ∧ a.toNat ≤ 0x25 then .cw ⟨a.toNat - 0x10, by omega⟩
  else if h : 0x30 ≤ a.toNat ∧ a.toNat ≤ 0x7E then .tone ⟨a.toNat - 0x30, by omega⟩
  else .reserved

/-- `MemRead(a, 1)` while idle (R33, R34): a narrower register is zero-extended (R12, R15, R35), a reserved address reads
0x00 (R37). It has no side effect (R36). -/
def readReg (s : State) (a : Byte) : Byte :=
  match portOf a with
  | .msg b => s.msg.get b
  | .typeField => s.typeField.setWidth 8
  | .status => statusByte s
  | .remHigh => (s.rem.extractLsb' 8 4).setWidth 8
  | .remLow => s.rem.extractLsb' 0 8
  | .cw b => s.cw.get b
  | .tone j => (s.tone.get j).setWidth 8
  | .reserved => 0x00#8

/-- `MemWrite(a, 1, v)` while idle (R33, R34): `TYPE` keeps bits 2:0 (R12), the hardwired bits of `CW` stay 0 (R14), a write
to a read-only register or a reserved address changes nothing (R37). The written register counts as written since reset (R112). -/
def writeReg (a v : Byte) (s : State) : State :=
  match portOf a with
  | .msg b => { s with msg := s.msg.set b v, msgWritten := s.msgWritten.set b true }
  | .typeField => { s with typeField := v.extractLsb' 0 3, typeWritten := true }
  | .status => s
  | .remHigh => s
  | .remLow => s
  | .cw b => { s with cw := s.cw.set b (v &&& cwMask b), cwWritten := s.cwWritten.set b true }
  | .tone _ => s
  | .reserved => s

/-! ### Errors -/

/-- `raise Err(code)` (R100), the whole of what the spec has for taking an exception: the first code is kept, `ERR` is set,
nothing else happens. There is nothing to return to (R103). -/
def raiseErr (code : ErrCode) (s : State) : State :=
  { s with errCode := bif s.err then s.errCode else code, err := true }

/-! ### Issue and completion -/

/-- The check on an operand that is made at issue (R48): `CRC n` is accepted for n up to 88 (R46, R98). -/
def accepted : Instr → Bool
  | .crc n => decide (n ≤ Config.crcMax)
  | .ldpc => true
  | .map => true
  | .encode => true

/-- A command is accepted (R48): the word is latched and `BUSY` set. How long it runs is drawn here (R117; log 3). -/
def accept (w : Word) (i : Instr) (s : State) : State :=
  { s with cmdLatch := w, busy := true, remaining := Config.latency i s.draws, draws := s.draws + 1 }

/-- Issue of the command word `w` (R48); the checks are made in this order (R101). -/
def issue (w : Word) (s : State) : State :=
  if s.busy then raiseErr .busyViolation s
  else
    match decode w with
    | .error _ => raiseErr .illegalCmd s
    | .ok i => if accepted i then accept w i s else raiseErr .crcLen s

/-- The end of a command's one transition (R48): `BUSY` is cleared with the register writes. `CMDLATCH` is kept, nothing reads
it while idle (log 7). -/
def complete (s : State) : State := { s with busy := false, remaining := 0 }

/-! ### A read set that was not written -/

/-- Whether the first `count` bytes of a buffer have been written since reset. -/
def leadingWritten {len : Nat} (record : Vector Bool len) (count : Nat) : Bool :=
  (List.range count).all fun k => record.getD k false

/-- Whether every register of the command's read set has been written since reset (the table of R112). -/
def readSetWritten (i : Instr) (s : State) : Bool :=
  match i with
  | .crc n => leadingWritten s.msgWritten ((n + 7) / 8)
  | .ldpc => leadingWritten s.msgWritten 11
  | .map => leadingWritten s.cwWritten 22
  | .encode => leadingWritten s.msgWritten 9 && s.typeWritten

/-- The register writes of `ENCODE`, besides `REM` and `TONE`, count as writes of bytes 9 and 10 of `MSG` and of all of `CW`
(R112: "or by an earlier command"). -/
def markEncoded (s : State) : State :=
  { s with msgWritten := (s.msgWritten.set 9 true).set 10 true, cwWritten := Vector.replicate 22 true }

/-- What a command does whose read set holds an unwritten register: every register it writes takes an unspecified value, a free
draw (R112, U5; log 9, 25). -/
def unspecifiedResult (i : Instr) (s : State) : State :=
  let d := s.draws
  match i with
  | .crc _ => { s with rem := Config.freeRem d, draws := d + 1 }
  | .ldpc => { s with cw := freeCodeword d, cwWritten := Vector.replicate 22 true, draws := d + 1 }
  | .map => { s with tone := freeTones d, draws := d + 1 }
  | .encode => { markEncoded s with
      msg := (s.msg.set 9 (Config.freeMsg d 9)).set 10 (Config.freeMsg d 10), rem := Config.freeRem d, cw := freeCodeword d,
      tone := freeTones d, draws := d + 1 }

/-! ### Reset -/

/-- `RESET` (R110, R111): one transition to the reset state, idle or busy; a running command is abandoned. The host's script
and the bytes it has read are the host's and stay (log 22). -/
def resetBlock (s : State) : State := State.afterReset s.draws s.script s.results

end Sys2Proof.Machine
end

