-- ==== Sys2Proof/Machine/Checksum.lean ====
section
/-! DEFINITION. The Checksum Unit and the `CRC n` command (40_crc12.md). -/

namespace Sys2Proof.Machine

/-- One bit enters the remainder register (R61): the bit leaving the register and the data bit decide whether `POLY` is added. -/
def crcStep (r : BitVec 12) (b : Bool) : BitVec 12 :=
  if r.msb ^^ b then (r <<< 1) ^^^ Config.poly else r <<< 1

/-- `crc12` of a finite bit sequence, bit-serial form (R61), which computes the polynomial remainder of R60 (spec decision D6;
log 12). -/
def crc12 (bits : List Bool) : BitVec 12 := bits.foldl crcStep 0#12

/-- One step of the byte-loading form (R62): at a multiple of 8 the next byte enters bits 11:4. -/
def crcLoadStep {len : Nat} (b : Buffer len) (r : BitVec 12) (i : Nat) : BitVec 12 :=
  let r := if i % 8 = 0 then r ^^^ ((b.getD (i / 8) 0#8).setWidth 12 <<< 4) else r
  if r.msb then (r <<< 1) ^^^ Config.poly else r <<< 1

/-- The byte-loading form the source describes (R62). The machine does not use it (C5); it is here to be compared with `crc12`. -/
def crc12ByteLoading {len : Nat} (b : Buffer len) (count : Nat) : BitVec 12 :=
  (List.range count).foldl (crcLoadStep b) 0#12

/-- `CRC n` (R63), on bytes of `MSG` written since reset; on others the result is unspecified (R112). A count above 88 is refused
at issue (R98), so the last case is only met in a state no run reaches; it has what R98 gives that operand: the error is recorded,
`REM` is kept, `BUSY` is 0 (log 13). -/
def execCrc (n : Nat) (s : State) : Outcome :=
  if n ≤ Config.crcMax then
    if readSetWritten (.crc n) s then .next (complete { s with rem := crc12 (leadingBits s.msg n) })
    else .next (complete (unspecifiedResult (.crc n) s))
  else .next (complete (raiseErr .crcLen s))

end Sys2Proof.Machine
end

