-- ==== Sys2Proof/Machine/Ldpc.lean ====
section
/-! DEFINITION. The Systematic LDPC Encoder and the `LDPC` command (41_ldpc.md). -/

namespace Sys2Proof.Machine

/-- `parity(v)`: the exclusive-or of all bits of `v` (00_scope.md section 5, R71). -/
def parity {w : Nat} (v : BitVec w) : Bool := (List.range w).foldl (fun p i => p ^^ v.getLsbD i) false

/-- The three-step fold of R71 on one byte: the reference form, equal to `parity`. -/
def parityFold (v : Byte) : Bool :=
  let v := v ^^^ (v >>> 4)
  let v := v ^^^ (v >>> 2)
  let v := v ^^^ (v >>> 1)
  v.getLsbD 0

/-- `P`: parity bit `i` is the parity of the information word under row `i` of the generator table (R70). -/
def parityWord (gen : Fin 87 → BitVec 87) (info : BitVec 87) : BitVec 87 :=
  BitVec.ofFnBE fun i => parity (info &&& gen i)

/-- `ITMP` = parity ‖ information (R72). -/
def itmp (gen : Fin 87 → BitVec 87) (info : BitVec 87) : BitVec 174 := parityWord gen info ++ info

/-- The loop of R73 over intermediate positions: only bits that are 1 are written, each at its column. -/
def scatter (col : Fin 174 → Fin 174) (v : BitVec 174) : Buffer 22 :=
  (List.finRange 174).foldl (fun c (p : Fin 174) => if v.getMsbD p then setBit c (col p) else c) (zeroBuffer 22)

/-- `ldpc174` (R73) packed into 22 bytes (R74), for any tables. -/
def ldpc174 (gen : Fin 87 → BitVec 87) (col : Fin 174 → Fin 174) (info : BitVec 87) : Buffer 22 :=
  scatter col (itmp gen info)

/-- `CW` as the machine's own tables give it from a message buffer (R75, R84). -/
def codewordOf (msg : Buffer 11) : Buffer 22 := ldpc174 Config.gen Config.colOrder (infoWord msg)

/-- `LDPC` (R75), on a message buffer written since reset; on another the result is unspecified (R112). -/
def execLdpc (s : State) : Outcome :=
  if readSetWritten .ldpc s then
    .next (complete { s with cw := codewordOf s.msg, cwWritten := Vector.replicate 22 true })
  else .next (complete (unspecifiedResult .ldpc s))

end Sys2Proof.Machine
end

