-- ==== Sys2Proof/Machine/Frame.lean ====
section
/-! DEFINITION. The Frame Assembler and the `MAP` and `ENCODE` commands (42_frame.md). -/

namespace Sys2Proof.Machine

/-- Data symbol `D[k]`: three consecutive codeword bits, the first the most significant (R86). -/
def dataSymbol (cw : Buffer 22) (k : Nat) : Tone :=
  BitVec.ofNat 3 (4 * (getBit cw (3 * k)).toNat + 2 * (getBit cw (3 * k + 1)).toNat + (getBit cw (3 * k + 2)).toNat)

/-- A data block: 29 consecutive data symbols, the first of them `D[first]` (R85, R86). -/
def dataBlock (cw : Buffer 22) (first : Nat) : Vector Tone 29 := Vector.ofFn fun k => dataSymbol cw (first + k)

/-- `tonemap`: Sync(7) Data(29) Sync(7) Data(29) Sync(7) (R85, R86). -/
def tonemap (cw : Buffer 22) : Vector Tone 79 :=
  Vector.cast (show 7 + 29 + 7 + 29 + 7 = 79 by decide)
    (Config.costas ++ dataBlock cw 0 ++ Config.costas ++ dataBlock cw 29 ++ Config.costas)

/-- Step 1: the type field into bits 7:5 of byte 9, bits 4:0 cleared (R81). -/
def buildFrame (ty : BitVec 3) (msg : Buffer 11) : Buffer 11 := msg.set 9 (ty.setWidth 8 <<< 5)

/-- Step 2b: the checksum, shifted left by `CRC_SHIFT`, across bytes 9 and 10 (R83, D5; log 11). -/
def packChecksum (c : BitVec 12) (msg : Buffer 11) : Buffer 11 :=
  let t : BitVec 13 := c.setWidth 13 <<< Config.crcShift
  (msg.set 9 (msg[9] ||| (t.extractLsb' 8 5).setWidth 8)).set 10 (t.extractLsb' 0 8)

/-- `MAP` (R87), on a codeword buffer written since reset; on another the result is unspecified (R112). -/
def execMap (s : State) : Outcome :=
  if readSetWritten .map s then .next (complete { s with tone := tonemap s.cw })
  else .next (complete (unspecifiedResult .map s))

/-- The stages of `ENCODE` (R88): build, checksum, pack, encode, map, in this fixed order (R89). -/
def encodeFrame (s : State) : State :=
  let s := { s with msg := buildFrame s.typeField s.msg }
  let s := { s with rem := crc12 (leadingBits s.msg Config.nCrcIn) }
  let s := { s with msg := packChecksum s.rem s.msg }
  let s := { s with cw := codewordOf s.msg }
  markEncoded { s with tone := tonemap s.cw }

/-- `ENCODE` (R88), on a payload and type written since reset; on others the result is unspecified (R112). -/
def execEncode (s : State) : Outcome :=
  if readSetWritten .encode s then .next (complete (encodeFrame s))
  else .next (complete (unspecifiedResult .encode s))

end Sys2Proof.Machine
end

