-- ==== Sys2Proof/Machine/Dispatch.lean ====
section
/-! DEFINITION. exec: what each command does at its completion (30_encoding.md R48), one arm per constructor of Instr. -/

namespace Sys2Proof.Machine

def exec (i : Instr) (s : State) : Host.Outcome State Fault Refusal :=
  match i with
  | .crc n => Sys2Proof.Machine.execCrc n s
  | .ldpc => Sys2Proof.Machine.execLdpc s
  | .map => Sys2Proof.Machine.execMap s
  | .encode => Sys2Proof.Machine.execEncode s

end Sys2Proof.Machine
end

