-- ==== Sys2Proof/Machine/HostPort.lean ====
section
/-! DEFINITION. The host's actions and who moves next (20_memory.md R32, R38; 30_encoding.md R52; 70_reset_and_hazards.md R110,
R117). -/

namespace Sys2Proof.Machine

/-- The script's result list gains a byte (R52). -/
def emit (b : Byte) (s : State) : State := { s with results := s.results ++ [b] }

/-- `WR a, v`: refused and recorded while busy (R38, R99). -/
def hostWrite (a v : Byte) (s : State) : State :=
  if s.busy then raiseErr .busyViolation s else writeReg a v s

/-- `RD a`: the register's byte, or, while busy and for any address but 0x0C, an unspecified byte, a fresh one each time and
never an error (R38, R99; log 10). -/
def hostRead (a : Byte) (s : State) : State :=
  if s.busy ∧ a ≠ 0x0C#8 then { emit (Config.busyByte s.draws) s with draws := s.draws + 1 }
  else emit (readReg s a) s

/-- `WAIT`: one poll of `STATUS`, repeated while `BUSY` = 1; the byte read is not kept (R52; log 5). -/
def hostWait (s : State) : State := if s.busy then { s with script := .wait :: s.script } else s

/-- One host action. The script of `s` is what is left after it. -/
def perform (a : HostAction) (s : State) : State :=
  match a with
  | .wr a v => hostWrite a v s
  | .rd a => hostRead a s
  | .cmd w => issue w s
  | .wait => hostWait s
  | .reset => resetBlock s

/-- `s` once its next host action has been taken off the script, before that action has any effect: one less of the host's
actions falls before a running command completes (log 3). -/
def afterAction (s : State) (rest : List HostAction) : State :=
  { s with script := rest, remaining := s.remaining - 1 }

/-- The host's move: its next action, if it has one; a host with none lets the machine stand (log 4). -/
def hostMove (s : State) : State :=
  match s.script with
  | [] => s
  | a :: rest => perform a (afterAction s rest)

/-- Whether the block's step is next: it has one exactly while `BUSY` = 1 (R48), and takes it when the host's actions that
fall before it are used up or the host has none left (R117; log 3, 4). -/
def blockMoves (s : State) : Bool := s.busy && (s.remaining == 0 || s.script.isEmpty)

end Sys2Proof.Machine
end

