-- ==== Sys2Proof/Machine/Step.lean ====
section
/-! DEFINITION. One step of block and host together (30_encoding.md R48, 20_memory.md R32). -/

namespace Sys2Proof.Machine

/-- The block's one step (R48): the command in `CMDLATCH` completes. -/
def blockStep (s : State) : Outcome :=
  match decode s.cmdLatch with
  | .ok i => exec i s
  | .error _ => .fault .latchUndefined

/-- One step: the block's completion when it is next, else the host's next action. -/
def step (s : State) : Host.Outcome State Fault Refusal :=
  if blockMoves s then blockStep s else .next (hostMove s)

/-- The command word stored where the block takes its next command from: accepted and latched, with no host action to fall
before its completion (log 17). -/
def State.withFetchWord (s : State) (nbits w : Nat) : State :=
  { s with cmdLatch := BitVec.ofNat 16 (w % 2 ^ nbits), busy := true, remaining := 0 }

end Sys2Proof.Machine
end

