-- ==== Sys2Proof/Machine/Script.lean ====
section
/-! DEFINITION. Host scripts (30_encoding.md R51, R52): the lines of the assembly, the pseudo-instructions and their expansion
into host actions. -/

namespace Sys2Proof.Machine

/-- One line of a host script: the four commands (R51), the host actions and the pseudo-instructions (R52). -/
inductive ScriptLine where
  /-- `CRC n`, `LDPC`, `MAP`, `ENCODE`. -/
  | command (i : Instr)
  /-- `WR a, v`. -/
  | wr (a v : Byte)
  /-- `RD a`. -/
  | rd (a : Byte)
  /-- `CMD w`: the raw command word. -/
  | cmd (w : Word)
  /-- `WAIT`. -/
  | wait
  /-- `RESET`. -/
  | reset
  /-- `LDPAY b0 ... b8`. -/
  | ldpay (b : Buffer 9)
  /-- `LDMSG b0 ... b10`. -/
  | ldmsg (b : Buffer 11)
  /-- `LDCW b0 ... b21`. -/
  | ldcw (b : Buffer 22)
  /-- `SETTYPE t`. -/
  | settype (t : Byte)
  /-- `RDREM`. -/
  | rdrem
  /-- `RDCW`. -/
  | rdcw
  /-- `RDTONES`. -/
  | rdtones
  /-- `RDMSG`. -/
  | rdmsg
  /-- `ENC b0 ... b8, t`. -/
  | enc (b : Buffer 9) (t : Byte)
  deriving DecidableEq, Repr

/-- Consecutive `WR` actions from an address on, in order. -/
def writeFrom (base : Nat) (bytes : List Byte) : List HostAction :=
  bytes.mapIdx fun j v => .wr (BitVec.ofNat 8 (base + j)) v

/-- Consecutive `RD` actions from an address on, in order. -/
def readFrom (base count : Nat) : List HostAction := (List.range count).map fun j => .rd (BitVec.ofNat 8 (base + j))

/-- The host actions a line stands for (R51, R52). -/
def ScriptLine.expand : ScriptLine → List HostAction
  | .command i => [.cmd (encode i)]
  | .wr a v => [.wr a v]
  | .rd a => [.rd a]
  | .cmd w => [.cmd w]
  | .wait => [.wait]
  | .reset => [.reset]
  | .ldpay b => writeFrom 0x00 b.toList
  | .ldmsg b => writeFrom 0x00 b.toList
  | .ldcw b => writeFrom 0x10 b.toList
  | .settype t => [.wr 0x0B t]
  | .rdrem => [.rd 0x0E, .rd 0x0F]
  | .rdcw => readFrom 0x10 22
  | .rdtones => readFrom 0x30 79
  | .rdmsg => readFrom 0x00 11
  | .enc b t => writeFrom 0x00 b.toList ++ [.wr 0x0B t, .cmd (encode .encode), .wait] ++ readFrom 0x30 79

/-- An assembler refuses a command that has no encoding: `CRC n` with n > 255 (R51). -/
def ScriptLine.assembles : ScriptLine → Bool
  | .command i => i.wellFormed
  | _ => true

/-- A script's host actions, top to bottom; none if a line is refused (R51). -/
def assemble (lines : List ScriptLine) : Option (List HostAction) :=
  if lines.all ScriptLine.assembles then some (lines.flatMap ScriptLine.expand) else none

end Sys2Proof.Machine
end

