-- ==== Sys2Proof/Machine/Assembler.lean ====
section
/-! DEFINITION. The text of a host script (30_encoding.md R51, R52): one action a line, a comment after a semicolon, decimal
or 0x numbers, upper-case mnemonics. Characters are taken as a list (log 20). -/

namespace Sys2Proof.Machine

/-- The value of a hexadecimal digit, either case. -/
def hexDigit (c : Char) : Option Nat :=
  if '0'.toNat ≤ c.toNat ∧ c.toNat ≤ '9'.toNat then some (c.toNat - '0'.toNat)
  else if 'a'.toNat ≤ c.toNat ∧ c.toNat ≤ 'f'.toNat then some (c.toNat - 'a'.toNat + 10)
  else if 'A'.toNat ≤ c.toNat ∧ c.toNat ≤ 'F'.toNat then some (c.toNat - 'A'.toNat + 10)
  else none

/-- Digits in a base, most significant first; at least one. -/
def digits (base : Nat) (cs : List Char) : Option Nat :=
  if cs.isEmpty then none
  else cs.foldl (fun acc c => do
    let v ← acc
    let d ← hexDigit c
    if d < base then some (v * base + d) else none) (some 0)

/-- "Numbers are decimal, or hexadecimal with the prefix 0x" (R51). -/
def number : List Char → Option Nat
  | '0' :: 'x' :: cs => digits 16 cs
  | cs => digits 10 cs

/-- A number that fits in `w` bits. -/
def numberIn (w : Nat) (cs : List Char) : Option (BitVec w) := do
  let v ← number cs
  if v < 2 ^ w then some (BitVec.ofNat w v) else none

/-- The tokens of a line: what stands between blanks and commas, up to a semicolon. -/
def tokens : List Char → List (List Char)
  | [] => [[]]
  | c :: cs =>
    if c = ';' then [[]]
    else if c = ' ' ∨ c = '\t' ∨ c = ',' then [] :: tokens cs
    else
      match tokens cs with
      | [] => [[c]]
      | t :: ts => (c :: t) :: ts

/-- The tokens of a line that hold a character. -/
def lineTokens (cs : List Char) : List (List Char) := (tokens cs).filter fun t => !t.isEmpty

/-- Exactly `len` byte operands. -/
def bytesIn (len : Nat) (ts : List (List Char)) : Option (Buffer len) :=
  match ts.mapM (numberIn 8) with
  | none => none
  | some bs => if h : bs.length = len then some ⟨bs.toArray, by simpa using h⟩ else none

/-- `ENC b0 ... b8, t`: nine payload bytes, then the type. -/
def encOperands (ts : List (List Char)) : Option ScriptLine := do
  let b ← bytesIn 9 (ts.take 9)
  match ts.drop 9 with
  | [t] => do
    let t ← numberIn 8 t
    some (.enc b t)
  | _ => none

/-- One line by its mnemonic and operands (R51, R52); none for any other line. An empty line holds no action. -/
def parseTokens (ts : List (List Char)) : Option (List ScriptLine) :=
  match ts with
  | [] => some []
  | [['L', 'D', 'P', 'C']] => some [.command .ldpc]
  | [['M', 'A', 'P']] => some [.command .map]
  | [['E', 'N', 'C', 'O', 'D', 'E']] => some [.command .encode]
  | [['W', 'A', 'I', 'T']] => some [.wait]
  | [['R', 'E', 'S', 'E', 'T']] => some [.reset]
  | [['R', 'D', 'R', 'E', 'M']] => some [.rdrem]
  | [['R', 'D', 'C', 'W']] => some [.rdcw]
  | [['R', 'D', 'T', 'O', 'N', 'E', 'S']] => some [.rdtones]
  | [['R', 'D', 'M', 'S', 'G']] => some [.rdmsg]
  | [['C', 'R', 'C'], a] => (number a).map fun v => [.command (.crc v)]
  | [['R', 'D'], a] => (numberIn 8 a).map fun v => [.rd v]
  | [['C', 'M', 'D'], a] => (numberIn 16 a).map fun v => [.cmd v]
  | [['S', 'E', 'T', 'T', 'Y', 'P', 'E'], a] => (numberIn 8 a).map fun v => [.settype v]
  | [['W', 'R'], a, b] => (numberIn 8 a).bind fun v => (numberIn 8 b).map fun w => [.wr v w]
  | ['L', 'D', 'P', 'A', 'Y'] :: bs => (bytesIn 9 bs).map fun v => [.ldpay v]
  | ['L', 'D', 'M', 'S', 'G'] :: bs => (bytesIn 11 bs).map fun v => [.ldmsg v]
  | ['L', 'D', 'C', 'W'] :: bs => (bytesIn 22 bs).map fun v => [.ldcw v]
  | ['E', 'N', 'C'] :: bs => (encOperands bs).map fun v => [v]
  | _ => none

/-- A script's lines, top to bottom; none if one of them cannot be read. -/
def parseScript (lines : List (List Char)) : Option (List ScriptLine) :=
  (lines.mapM fun l => parseTokens (lineTokens l)).map List.flatten

/-- From text to host actions (R51, R52). -/
def assembleText (lines : List (List Char)) : Option (List HostAction) := (parseScript lines).bind assemble

end Sys2Proof.Machine
end

