-- ==== Sys2Proof/Machine/Instances.lean ====
section
/-! DEFINITION. Several instances of the block (60_exceptions.md R106): each has its own registers, latch and host; they share
nothing but the constants of Config. -/

namespace Sys2Proof.Machine

/-- One step of instance `j` among several. The others stand. An index with no instance moves nothing (log 16). -/
def stepAmong (j : Nat) (all : List State) : Host.Outcome (List State) Fault Refusal :=
  match all[j]? with
  | none => .next all
  | some s =>
    match step s with
    | .next t => .next (all.set j t)
    | .fault r => .fault r
    | .refused r => .refused r

end Sys2Proof.Machine
end

