-- ==== Sys2Proof/Safety.lean ====
section
/-! DEFINITION. What claims are stated in terms of: the invariant of the state, the end of a run and what is observed of it
(70_reset_and_hazards.md R119), and the discipline of a host that waits for idle (R113). -/

namespace Sys2Proof.Machine

/-- The two hardwired bits of `CW` are 0 (R14, R31). -/
def CodewordPadZero (s : State) : Prop := getBit s.cw 174 = false ∧ getBit s.cw 175 = false

/-- `ERRCODE` is 0 exactly while `ERR` is 0 (R16). -/
def ErrorRecordConsistent (s : State) : Prop := s.err = false ↔ s.errCode = .none

/-- While `BUSY` = 1 the latch holds a command that was accepted (R17, R48). -/
def LatchHoldsCommand (s : State) : Prop :=
  s.busy = true → ∃ i, decode s.cmdLatch = .ok i ∧ accepted i = true

/-- The invariant every step keeps. -/
structure State.Inv (s : State) : Prop where
  codewordPad : CodewordPadZero s
  errorRecord : ErrorRecordConsistent s
  latch : LatchHoldsCommand s

/-- The run has ended: the script's last action has been performed and `BUSY` = 0 (R119). -/
def RunEnded (s : State) : Prop := s.script = [] ∧ s.busy = false

/-- A good end: `ERR` = 0 as well (R119). -/
def GoodRun (s : State) : Prop := RunEnded s ∧ s.err = false

/-- What is observed of a run: the bytes its reads returned and the final values of the host-readable registers (R119). -/
def observation (s : State) : List Byte × List Byte :=
  (s.results, (List.range 256).map fun a => readReg s (BitVec.ofNat 8 a))

/-- The two states agree on every data register, on what has been written since reset, and on the error record, whatever the busy
bit, the latch, the host's side and the counter of free values are. -/
def SameRegisters (s t : State) : Prop :=
  s.msg = t.msg ∧ s.typeField = t.typeField ∧ s.rem = t.rem ∧ s.cw = t.cw ∧ s.tone = t.tone ∧
    (s.msgWritten = t.msgWritten ∧ s.typeWritten = t.typeWritten ∧ s.cwWritten = t.cwWritten) ∧ s.err = t.err ∧
    s.errCode = t.errCode

/-- A host that waits for idle (R113): every command it issues is followed at once by `WAIT` or `RESET`. -/
def WaitsForIdle : List HostAction → Bool
  | [] => true
  | .cmd _ :: .wait :: rest => WaitsForIdle rest
  | .cmd _ :: .reset :: rest => WaitsForIdle rest
  | .cmd _ :: _ => false
  | .wr _ _ :: rest => WaitsForIdle rest
  | .rd _ :: rest => WaitsForIdle rest
  | .wait :: rest => WaitsForIdle rest
  | .reset :: rest => WaitsForIdle rest

/-- The host is waiting or about to be free (R113): an idle block with a script that waits for idle, or a busy one whose next host
action is `WAIT` or `RESET`. -/
def HostWaits (s : State) : Prop :=
  (s.busy = false ∧ WaitsForIdle s.script = true) ∨
    (s.busy = true ∧ ∃ rest, (s.script = .wait :: rest ∨ s.script = .reset :: rest) ∧ WaitsForIdle rest = true)

/-- The host's next move is one that a busy block refuses (R99): a `CMD` or a `WR` while `BUSY` = 1. -/
def RefusedAsBusy (s : State) : Prop :=
  s.busy = true ∧ blockMoves s = false ∧
    ((∃ w rest, s.script = .cmd w :: rest) ∨ ∃ a v rest, s.script = .wr a v :: rest)

/-- The registers that command `i` does not write (the table of R10), and the error record, are the same in both states. -/
def AgreeOutsideWriteSet (i : Instr) (s t : State) : Prop :=
  s.typeField = t.typeField ∧ s.typeWritten = t.typeWritten ∧ s.err = t.err ∧ s.errCode = t.errCode ∧
    (∀ b (h : b < 9), s.msg[b] = t.msg[b] ∧ s.msgWritten[b] = t.msgWritten[b]) ∧
    match i with
    | .crc _ => s.msg = t.msg ∧ s.cw = t.cw ∧ s.tone = t.tone ∧ s.msgWritten = t.msgWritten ∧ s.cwWritten = t.cwWritten
    | .ldpc => s.msg = t.msg ∧ s.rem = t.rem ∧ s.tone = t.tone ∧ s.msgWritten = t.msgWritten
    | .map => s.msg = t.msg ∧ s.rem = t.rem ∧ s.cw = t.cw ∧ s.msgWritten = t.msgWritten ∧ s.cwWritten = t.cwWritten
    | .encode => True

end Sys2Proof.Machine
end

