-- ==== Sys2Proof/Certificates/Slice0/Obligations.lean ====
section
/-! DEFINITION. The statements about FT8ENC for the provers, each from a numbered rule of spec/ or from sections of it. -/

open Sys2Proof Sys2Proof.Machine

namespace Sys2Proof.Machine

/-- `s` with an error recorded as R100 says it is recorded, and nothing else changed. -/
def withError (code : ErrCode) (s : State) : State :=
  { s with err := true, errCode := if s.err = false then code else s.errCode }

/-- The fields of a word that make it illegal, as R49 lists them. -/
def IllegalFields (w : Word) : Prop :=
  w.toNat / 4096 = 0 ∨ 5 ≤ w.toNat / 4096 ∨ w.toNat / 256 % 16 ≠ 0 ∨
    ((w.toNat / 4096 = 2 ∨ w.toNat / 4096 = 3 ∨ w.toNat / 4096 = 4) ∧ w.toNat % 256 ≠ 0)

/-- The 76 bits a frame checksum covers: payload, type with its most significant bit first, one 0 (R82). -/
def frameBits (msg : Buffer 11) (ty : BitVec 3) : List Bool :=
  leadingBits msg 72 ++ [ty.getLsbD 2, ty.getLsbD 1, ty.getLsbD 0, false]

/-- Bit `j` of payload ‖ type, `j` in 0..74 (R80). -/
def frameInputBit (s : State) (j : Nat) : Bool := if j < 72 then getBit s.msg j else s.typeField.getLsbD (74 - j)

/-- The host's sequence of R91 for type `ty`, `c` the checksum it reads at 0x0E and 0x0F: `CRC 76` is 0x104C, `LDPC` 0x2000, `MAP`
0x3000. -/
def hostSequence (ty : BitVec 3) (c : BitVec 12) : List HostAction :=
  [.wr 0x09#8 (ty.setWidth 8 <<< 5), .cmd 0x104C#16, .wait, .rd 0x0E#8, .rd 0x0F#8,
    .wr 0x09#8 ((ty.setWidth 8 <<< 5) ||| (c >>> 7).setWidth 8), .wr 0x0A#8 (c.setWidth 8 <<< 1), .cmd 0x2000#16, .wait,
    .cmd 0x3000#16, .wait]

end Sys2Proof.Machine

/-! ### Encoding -/

/-- 30_encoding.md R47, its examples, written bit by bit from the encoding column. -/
def Obligations.FamilyWordsDecode : Prop :=
  decode 0b0001000001001100#16 = .ok (.crc 76) ∧ decode 0b0001000000000000#16 = .ok (.crc 0) ∧
    decode 0b0001000001011000#16 = .ok (.crc 88) ∧ decode 0b0010000000000000#16 = .ok .ldpc ∧
    decode 0b0011000000000000#16 = .ok .map ∧ decode 0b0100000000000000#16 = .ok .encode

/-- 30_encoding.md R47: a word selects a row when it equals the row's match under the row's mask; every other word is illegal. -/
def Obligations.DecodeFollowsOpcodeMap : Prop :=
  ∀ w : Word,
    (∀ n, decode w = .ok (.crc n) ↔ w &&& 0xFF00#16 = 0x1000#16 ∧ n = (w &&& 0x00FF#16).toNat) ∧
    (decode w = .ok .ldpc ↔ w &&& 0xFFFF#16 = 0x2000#16) ∧
    (decode w = .ok .map ↔ w &&& 0xFFFF#16 = 0x3000#16) ∧
    (decode w = .ok .encode ↔ w &&& 0xFFFF#16 = 0x4000#16) ∧
    ((∃ r, decode w = .error r) ↔
      w &&& 0xFF00#16 ≠ 0x1000#16 ∧ w &&& 0xFFFF#16 ≠ 0x2000#16 ∧ w &&& 0xFFFF#16 ≠ 0x3000#16 ∧
        w &&& 0xFFFF#16 ≠ 0x4000#16)

/-- Every well-formed command is what its own word decodes to, and every word that decodes is the word of its command. -/
def Obligations.DecodeEncodeRoundTrip : Prop :=
  (∀ i : Instr, i.wellFormed = true → decode (encode i) = .ok i) ∧
    (∀ (w : Word) (i : Instr), decode w = .ok i → i.wellFormed = true ∧ encode i = w)

/-- 30_encoding.md R49 and 60_exceptions.md R97: which words are illegal, and that an illegal word issued while idle records
`ILLEGAL_CMD` and changes nothing else. -/
def Obligations.IllegalWordRecordsIllegalCmd : Prop :=
  (∀ w : Word, (∃ r, decode w = .error r) ↔ IllegalFields w) ∧
    ∀ (s : State) (w : Word) (rest : List HostAction), IllegalFields w → s.busy = false → s.script = .cmd w :: rest →
      step s = .next (withError .illegalCmd (afterAction s rest))

/-! ### Issue, completion and errors -/

/-- 60_exceptions.md R98: `CRC n` with n in 89..255 issued while idle records `CRC_LEN`; `REM` and everything else keep their
values. -/
def Obligations.OverlongCrcIsRefusedAtIssue : Prop :=
  ∀ (s : State) (n : Nat) (rest : List HostAction), 89 ≤ n → n ≤ 255 → s.busy = false →
    s.script = .cmd (0x1000#16 + BitVec.ofNat 16 n) :: rest →
      step s = .next (withError .crcLen (afterAction s rest))

/-- 30_encoding.md R48, the accepting branch of issue: the word is latched, `BUSY` is set, no data register changes. How long the
command runs is the model's free value (log 3). -/
def Obligations.AcceptedCommandIsLatched : Prop :=
  ∀ (s : State) (w : Word) (i : Instr) (rest : List HostAction), s.busy = false → s.script = .cmd w :: rest →
    decode w = .ok i → (∀ n, i = .crc n → n ≤ 88) →
      step s = .next { afterAction s rest with
        cmdLatch := w, busy := true, remaining := Config.latency i s.draws, draws := s.draws + 1 }

/-- 60_exceptions.md R99: while busy any `CMD` and any `WR` is dropped and recorded as `BUSY_VIOLATION`, before the word is decoded,
and a `RD` is never an error. The premise on `remaining` says that the host's action comes before the completion (log 3). -/
def Obligations.BusyCommandOrWriteIsDropped : Prop :=
  ∀ (s : State) (rest : List HostAction), s.busy = true → s.remaining ≠ 0 →
    (∀ w, s.script = .cmd w :: rest → step s = .next (withError .busyViolation (afterAction s rest))) ∧
    (∀ a v, s.script = .wr a v :: rest → step s = .next (withError .busyViolation (afterAction s rest))) ∧
    (∀ a, s.script = .rd a :: rest →
      ∃ t, step s = .next t ∧ t.err = s.err ∧ t.errCode = s.errCode ∧ t.busy = true ∧ t.cmdLatch = s.cmdLatch ∧
        t.msg = s.msg ∧ t.typeField = s.typeField ∧ t.rem = s.rem ∧ t.cw = s.cw ∧ t.tone = s.tone)

/-- 20_memory.md R38, reads: while busy `RD 0x0C` returns the true `STATUS`, any other address some byte; nothing else happens to
the block. -/
def Obligations.BusyReadOfStatusIsTrue : Prop :=
  ∀ (s : State) (a : Byte) (rest : List HostAction), s.busy = true → s.remaining ≠ 0 → s.script = .rd a :: rest →
    (a = 0x0C#8 → step s = .next { afterAction s rest with results := s.results ++ [statusByte s] }) ∧
    (a ≠ 0x0C#8 → ∃ b, step s = .next { afterAction s rest with results := s.results ++ [b], draws := s.draws + 1 })

/-- 20_memory.md R38, its last sentence: whatever the host does while a command runs, short of a reset, every data register and the
latch stay, and the command completes as if nothing had happened. (On an unwritten read set its result is unspecified either way,
R112.) -/
def Obligations.BusyAccessLeavesCommandAlone : Prop :=
  ∀ (s t : State) (a : HostAction) (rest : List HostAction), s.busy = true → s.remaining ≠ 0 → s.script = a :: rest →
    a ≠ .reset → step s = .next t →
      (t.busy = true ∧ t.cmdLatch = s.cmdLatch ∧ t.msg = s.msg ∧ t.typeField = s.typeField ∧ t.rem = s.rem ∧ t.cw = s.cw ∧
        t.tone = s.tone) ∧
        ∀ i : Instr, readSetWritten i t = readSetWritten i s ∧
          ∀ u v : State, readSetWritten i s = true → exec i s = .next u → exec i t = .next v →
            v.msg = u.msg ∧ v.typeField = u.typeField ∧ v.rem = u.rem ∧ v.cw = u.cw ∧ v.tone = u.tone

/-- 60_exceptions.md R100: recording an error keeps the first code, sets `ERR` and does nothing else; the action that caused the
error has no effect but the record; only reset clears the record. -/
def Obligations.ErrorRecordIsStickyAndFirst : Prop :=
  (∀ (code : ErrCode) (s : State), raiseErr code s = withError code s) ∧
  (∀ s t : State, LatchHoldsCommand s → s.err = false → step s = .next t → t.err = true →
    ∃ a rest code, s.script = a :: rest ∧ t = withError code (afterAction s rest)) ∧
  (∀ s t : State, s.err = true → step s = .next t →
    (t.err = true ∧ t.errCode = s.errCode) ∨ (blockMoves s = false ∧ ∃ rest, s.script = .reset :: rest))

/-- 60_exceptions.md R96: the complete list of errors: the codes, and for each error the host action and cause that raise it, and
nothing else does. The premises are parts of the model's invariant, for a block with a clear record. -/
def Obligations.ErrorsHaveListedCauses : Prop :=
  (ErrCode.none.bits = 0#2 ∧ ErrCode.illegalCmd.bits = 1#2 ∧ ErrCode.crcLen.bits = 2#2 ∧ ErrCode.busyViolation.bits = 3#2) ∧
  ∀ s t : State, LatchHoldsCommand s → s.err = false → s.errCode = .none → step s = .next t →
    (t.err = true ↔ t.errCode ≠ .none) ∧
    (t.errCode = .illegalCmd ↔ s.busy = false ∧ ∃ w r rest, s.script = .cmd w :: rest ∧ decode w = .error r) ∧
    (t.errCode = .crcLen ↔ s.busy = false ∧ ∃ w n rest, s.script = .cmd w :: rest ∧ decode w = .ok (.crc n) ∧ 88 < n) ∧
    (t.errCode = .busyViolation ↔ s.busy = true ∧ blockMoves s = false ∧
      ∃ rest, (∃ w, s.script = .cmd w :: rest) ∨ ∃ a v, s.script = .wr a v :: rest)

/-- When the block is next to move and its latch holds a command's word, the step is that command's meaning (R48; the fetch of
this hardware, log 1). -/
def Obligations.StepRunsLatchedCommand : Prop :=
  ∀ (s : State) (i : Instr), s.busy = true → (s.remaining = 0 ∨ s.script = []) → decode s.cmdLatch = .ok i →
    step s = exec i s

/-- 30_encoding.md R48, its last sentence, and R105: an idle block changes nothing by itself. That a host with nothing to do lets
the machine stand is the model's choice (log 4). -/
def Obligations.IdleBlockStands : Prop :=
  ∀ s : State, RunEnded s → step s = .next s

/-- Every command answers a next state, in every state, and leaves the block idle (R48: an accepted command always completes). -/
def Obligations.EveryCommandCompletes : Prop :=
  ∀ (i : Instr) (s : State), ∃ t, exec i s = .next t ∧ t.busy = false

/-- 30_encoding.md R52 and 70_reset_and_hazards.md R117: `WAIT` after an accepted command ends, however long the command runs, with
the command's results in the registers. The count of steps is the model's (log 3, 5). -/
def Obligations.WaitEndsWithCommandDone : Prop :=
  ∀ (s : State) (rest : List HostAction), LatchHoldsCommand s → s.busy = true → s.script = .wait :: rest →
    ∃ (i : Instr) (t u : State), decode s.cmdLatch = .ok i ∧ exec i s = .next u ∧ core.run (s.remaining + 2) s = .next t ∧
      t.busy = false ∧ t.script = rest ∧ t.results = s.results ∧ SameRegisters t u

/-- Issue followed by `WAIT` acts as the command's meaning on the state before the issue, whatever the latency (R39, R113): always
on what the command does not write, and on its results when its read set is written (R112). -/
def Obligations.CommandThenWaitActsAtOnce : Prop :=
  ∀ (s : State) (w : Word) (i : Instr) (rest : List HostAction), s.busy = false → s.script = .cmd w :: .wait :: rest →
    decode w = .ok i → (∀ n, i = .crc n → n ≤ 88) →
      ∃ (k : Nat) (t u : State), exec i s = .next u ∧ core.run k s = .next t ∧ t.busy = false ∧ t.script = rest ∧
        t.results = s.results ∧ AgreeOutsideWriteSet i t s ∧ (readSetWritten i s = true → SameRegisters t u)

/-- A host that follows every command with `WAIT` or `RESET` (R113) stays so with every step, never performs a `CMD` or a `WR` while
the block is busy, and so no step of it records `BUSY_VIOLATION` (R99), however long commands run. -/
def Obligations.WaitingHostIsNeverRefusedAsBusy : Prop :=
  ∀ s t : State, HostWaits s → step s = .next t →
    HostWaits t ∧ ¬ RefusedAsBusy s ∧ (t.errCode = .busyViolation → s.errCode = .busyViolation)

/-! ### The Checksum Unit -/

/-- 40_crc12.md R60: `crc12(s)` is the remainder of S(x) x^12 by G(x) over GF(2), bit i the coefficient of x^i. -/
def Obligations.ChecksumIsPolynomialRemainder : Prop :=
  ∀ bits : List Bool,
    (∑ i : Fin 12, Polynomial.C (if (crc12 bits).getLsbD i then (1 : ZMod 2) else 0) * Polynomial.X ^ i.val) =
      Polynomial.modByMonic
        ((∑ j : Fin bits.length, Polynomial.C (if bits[j] then (1 : ZMod 2) else 0) * Polynomial.X ^ (bits.length - 1 - j.val)) *
          Polynomial.X ^ 12)
        (Polynomial.X ^ 12 + Polynomial.X ^ 11 + Polynomial.X ^ 10 + Polynomial.X ^ 2 + Polynomial.X)

/-- 40_crc12.md R62: the byte-loading form equals `crc12` exactly when the bits of the last loaded byte beyond N are zero; on 0xFF
with N = 4 the two are 0x336 and 0xC36. -/
def Obligations.ByteLoadingFormAgreesOnZeroTail : Prop :=
  (∀ (len : Nat) (b : Buffer len) (n : Nat), n ≤ 8 * len →
    (crc12ByteLoading b n = crc12 (leadingBits b n) ↔ ∀ i, n ≤ i → i < 8 * ((n + 7) / 8) → getBit b i = false)) ∧
  crc12ByteLoading (#v[0xFF#8]) 4 = 0x336#12 ∧ crc12 (leadingBits (#v[0xFF#8]) 4) = 0xC36#12

/-- 40_crc12.md R64: zero, empty, linearity, leading zeros, the single one, and bit 0. -/
def Obligations.ChecksumConsequences : Prop :=
  (∀ n, crc12 (List.replicate n false) = 0#12) ∧ crc12 [] = 0#12 ∧
  (∀ a b : List Bool, a.length = b.length → crc12 (List.zipWith xor a b) = crc12 a ^^^ crc12 b) ∧
  (∀ a : List Bool, crc12 (false :: a) = crc12 a) ∧ crc12 [true] = 0xC06#12 ∧
  (∀ a : List Bool, (crc12 a).getLsbD 0 = false)

/-- 40_crc12.md R63, the command at completion on a written read set (R112): `REM` is the checksum of the first n stream bits of
`MSG`, read as R30 numbers them; nothing else changes but `BUSY`. `l` and `r` leave open the latch of the idle block and the model's
own counter (log 7, 3). -/
def Obligations.CrcWritesRemOnly : Prop :=
  ∀ (s : State) (n : Nat), n ≤ 88 → readSetWritten (.crc n) s = true → ∃ (l : Word) (r : Nat),
    exec (.crc n) s = .next { s with
      rem := crc12 ((List.range n).map fun i => (s.msg.toList.getD (i / 8) 0#8).getLsbD (7 - i % 8)),
      busy := false, cmdLatch := l, remaining := r }

/-- A running `CRC n` with n above 88, a state no run reaches: the model's choice (log 13) is the effect R98 gives that operand. -/
def Obligations.OverlongCrcNeverWritesRem : Prop :=
  ∀ (s : State) (n : Nat), 89 ≤ n → exec (.crc n) s = .next { withError .crcLen s with busy := false, remaining := 0 }

/-! ### The LDPC Encoder -/

/-- 41_ldpc.md R70: the parity bits are the matrix-vector product of the generator table and the information word over GF(2). -/
def Obligations.ParityIsMatrixProduct : Prop :=
  ∀ (gen : Fin 87 → BitVec 87) (info : BitVec 87) (i : Fin 87),
    (if (parityWord gen info).getMsbD i then (1 : ZMod 2) else 0) =
      Matrix.mulVec (Matrix.of fun r c : Fin 87 => if (gen r).getMsbD c then (1 : ZMod 2) else 0)
        (fun c => if info.getMsbD c then 1 else 0) i

/-- 41_ldpc.md R71: parity is the population count mod 2, the three-step fold gives it on a byte, and the parity of 11 bytes is the
exclusive-or of the byte parities. -/
def Obligations.ParityIsPopulationCountModTwo : Prop :=
  (∀ (w : Nat) (v : BitVec w), parity v = decide ((List.range w).countP (fun i => v.getLsbD i) % 2 = 1)) ∧
  (∀ v : Byte, parityFold v = parity v) ∧
  (∀ b : Buffer 11, parity (BitVec.ofFnBE (n := 88) fun i => getBit b i) = (b.toList.map parityFold).foldl xor false)

/-- 41_ldpc.md R73 with R72 and R74: for every generator table and every bijective column order, the bit at intermediate position p
is at codeword position `COLORDER[p]`, and the two pad bits are 0. -/
def Obligations.CodewordPlacement : Prop :=
  ∀ (gen : Fin 87 → BitVec 87) (col : Equiv.Perm (Fin 174)) (info : BitVec 87),
    (∀ p : Fin 174, getBit (ldpc174 gen col info) (col p) =
      if p.val < 87 then (parityWord gen info).getMsbD p else info.getMsbD (p - 87)) ∧
    getBit (ldpc174 gen col info) 174 = false ∧ getBit (ldpc174 gen col info) 175 = false

/-- 41_ldpc.md R76: linearity, zero, systematic, parity positions, injectivity and weight, for every table and bijective column
order. -/
def Obligations.LdpcConsequences : Prop :=
  ∀ (gen : Fin 87 → BitVec 87) (col : Equiv.Perm (Fin 174)),
    (∀ (a b : BitVec 87) (q : Nat), q < 174 → getBit (ldpc174 gen col (a ^^^ b)) q =
      (getBit (ldpc174 gen col a) q ^^ getBit (ldpc174 gen col b) q)) ∧
    ldpc174 gen col 0#87 = Vector.replicate 22 0#8 ∧
    (∀ (info : BitVec 87) (j : Fin 87),
      getBit (ldpc174 gen col info) (col ⟨87 + j, by omega⟩) = info.getMsbD j) ∧
    (∀ (info : BitVec 87) (i : Fin 87),
      getBit (ldpc174 gen col info) (col ⟨i, by omega⟩) = parity (info &&& gen i)) ∧
    (∀ a b : BitVec 87, ldpc174 gen col a = ldpc174 gen col b → a = b) ∧
    (∀ info : BitVec 87, (List.range 174).countP (fun q => getBit (ldpc174 gen col info) q) =
      (List.range 87).countP (fun j => info.getMsbD j) + (List.range 87).countP (fun i => (parityWord gen info).getMsbD i))

/-- 41_ldpc.md R75, the word and the command at completion on a written read set (R112), with the machine's own tables: every bit of
`CW`, which counts as written, and nothing else changes but `BUSY`. `l` and `r` leave open the latch of the idle block and the
model's own counter (log 7, 3). -/
def Obligations.LdpcWritesCodewordOnly : Prop :=
  encode .ldpc = 0x2000#16 ∧ ∀ s : State, readSetWritten .ldpc s = true → ∃ (c : Buffer 22) (l : Word) (r : Nat),
    exec .ldpc s = .next { s with
      cw := c, cwWritten := Vector.replicate 22 true, busy := false, cmdLatch := l, remaining := r } ∧
    (∀ i : Fin 87, getBit c (Config.colOrder ⟨i, by omega⟩) =
      (List.range 87).foldl (fun p j => p ^^ (getBit s.msg j && (Config.gen i).getMsbD j)) false) ∧
    (∀ j : Fin 87, getBit c (Config.colOrder ⟨87 + j, by omega⟩) = getBit s.msg j) ∧
    getBit c 174 = false ∧ getBit c 175 = false

/-- 41_ldpc.md R78: `MSG{87}` is ignored by `LDPC`, on written read sets (R112). -/
def Obligations.LdpcIgnoresPadBit : Prop :=
  ∀ s s' t t' : State, readSetWritten .ldpc s = true → readSetWritten .ldpc s' = true →
    (∀ i, i < 87 → getBit s.msg i = getBit s'.msg i) → exec .ldpc s = .next t → exec .ldpc s' = .next t' → t.cw = t'.cw

/-! ### The Frame Assembler -/

/-- 42_frame.md R85 and R86: the place and value of every tone. -/
def Obligations.ToneSequenceLayout : Prop :=
  ∀ cw : Buffer 22,
    (∀ i : Fin 7, (tonemap cw)[i.val] = Config.costas[i] ∧ (tonemap cw)[36 + i.val] = Config.costas[i] ∧
      (tonemap cw)[72 + i.val] = Config.costas[i]) ∧
    (∀ k : Fin 29, ((tonemap cw)[7 + k.val]).toNat =
      4 * (getBit cw (3 * k)).toNat + 2 * (getBit cw (3 * k + 1)).toNat + (getBit cw (3 * k + 2)).toNat) ∧
    (∀ k : Fin 29, ((tonemap cw)[43 + k.val]).toNat =
      4 * (getBit cw (3 * (29 + k))).toNat + 2 * (getBit cw (3 * (29 + k) + 1)).toNat + (getBit cw (3 * (29 + k) + 2)).toNat)

/-- 42_frame.md R87, the word and the command at completion on a written read set (R112): all 79 tones, from the 174 codeword bits,
and nothing else changes but `BUSY`. `l` and `r` leave open the latch of the idle block and the model's own counter (log 7, 3). -/
def Obligations.MapWritesTonesOnly : Prop :=
  encode .map = 0x3000#16 ∧ ∀ s : State, readSetWritten .map s = true → ∃ (tone : Vector Tone 79) (l : Word) (r : Nat),
    exec .map s = .next { s with tone := tone, busy := false, cmdLatch := l, remaining := r } ∧
    (tone.toList.take 7 = [2, 5, 6, 0, 4, 1, 3] ∧ (tone.toList.drop 36).take 7 = [2, 5, 6, 0, 4, 1, 3] ∧
      tone.toList.drop 72 = [2, 5, 6, 0, 4, 1, 3]) ∧
    (∀ k : Fin 58, ((tone.toList.getD (if k.val < 29 then 7 + k else 14 + k) 0).toNat =
      4 * (getBit s.cw (3 * k)).toNat + 2 * (getBit s.cw (3 * k + 1)).toNat + (getBit s.cw (3 * k + 2)).toNat))

/-- 42_frame.md R80, with R82: the layout of `MSG` that `ENCODE` leaves on a written read set (R112), bit by bit, the checksum taken
over payload ‖ type ‖ 0. -/
def Obligations.EncodePacksMessageBuffer : Prop :=
  ∀ s : State, readSetWritten .encode s = true → ∃ t, exec .encode s = .next t ∧
    t.rem = crc12 (frameBits s.msg s.typeField) ∧
    (∀ i, i < 72 → getBit t.msg i = getBit s.msg i) ∧
    (∀ i, i < 3 → getBit t.msg (72 + i) = s.typeField.getLsbD (2 - i)) ∧
    (∀ i, i < 12 → getBit t.msg (75 + i) = t.rem.getLsbD (11 - i)) ∧
    getBit t.msg 87 = false

/-- 42_frame.md R88, the word and the command at completion on a written read set (R112): the bytes, the checksum, the codeword and
the tones of its pseudocode; payload, type and everything else are unchanged. `w` is the record of written bytes (log 24); `l` and
`r` leave open the latch of the idle block and the model's own counter (log 7, 3). -/
def Obligations.EncodeWritesFrame : Prop :=
  encode .encode = 0x4000#16 ∧ ∀ s : State, readSetWritten .encode s = true →
    ∃ (c : BitVec 12) (m : Buffer 11) (cw : Buffer 22) (tone : Vector Tone 79) (w : Vector Bool 11) (l : Word) (r : Nat),
    exec .encode s = .next { s with
      msg := m, rem := c, cw := cw, tone := tone, msgWritten := w, cwWritten := Vector.replicate 22 true,
      busy := false, cmdLatch := l, remaining := r } ∧
    (∀ b (h : b < 9), m[b] = s.msg[b]) ∧
    c = crc12 (leadingBits (s.msg.set 9 (s.typeField.setWidth 8 <<< 5)) 76) ∧
    m[9].toNat = s.typeField.toNat * 32 + c.toNat / 128 ∧ m[10].toNat = 2 * c.toNat % 256 ∧
    (∀ b (h : b < 11), w[b] = (s.msgWritten[b] || decide (9 ≤ b))) ∧
    exec .ldpc { s with msg := m, msgWritten := w } = .next { s with
      msg := m, msgWritten := w, cw := cw, cwWritten := Vector.replicate 22 true,
      busy := false, cmdLatch := l, remaining := r } ∧
    exec .map { s with cw := cw, cwWritten := Vector.replicate 22 true } = .next { s with
      cw := cw, cwWritten := Vector.replicate 22 true, tone := tone, busy := false, cmdLatch := l, remaining := r }

/-- 42_frame.md R91: from any idle state with payload and type written, the host's own sequence and `ENCODE`, each run to its end
with whatever latencies, leave the same `MSG`, `REM`, `CW` and `TONE`; the sequence's two reads of `REM` return the checksum `c` it
packs. -/
def Obligations.EncodeEqualsHostSequence : Prop :=
  ∀ (s : State) (c : BitVec 12), s.busy = false → readSetWritten .encode s = true → c = crc12 (frameBits s.msg s.typeField) →
    ∃ (k k' : Nat) (t t' : State),
      core.run k { s with script := hostSequence s.typeField c } = .next t ∧ RunEnded t ∧
      core.run k' { s with script := [.cmd 0x4000#16, .wait] } = .next t' ∧ RunEnded t' ∧
      t.results = s.results ++ [(c >>> 8).setWidth 8, c.setWidth 8] ∧
      t.msg = t'.msg ∧ t.rem = t'.rem ∧ t.cw = t'.cw ∧ t.tone = t'.tone

/-- 42_frame.md R90 (d) and (f), on written read sets (R112): two inputs of `ENCODE` that differ in payload or type bit j differ in
data symbol `COLORDER[87 + j] div 3`, whatever else differs; and equal tone sequences come from equal payloads and types. -/
def Obligations.EncodeInputBitChangesItsTone : Prop :=
  ∀ s s' t t' : State, readSetWritten .encode s = true → readSetWritten .encode s' = true →
    exec .encode s = .next t → exec .encode s' = .next t' →
    (∀ j : Fin 75, frameInputBit s j ≠ frameInputBit s' j →
      let k := (Config.colOrder ⟨87 + j, by omega⟩).val / 3
      t.tone.toList.getD (if k < 29 then 7 + k else 14 + k) 0 ≠ t'.tone.toList.getD (if k < 29 then 7 + k else 14 + k) 0) ∧
    (t.tone = t'.tone → (∀ b (h : b < 9), s.msg[b] = s'.msg[b]) ∧ s.typeField = s'.typeField)

/-- 42_frame.md R90 (e) and (g): the zero frame has all data tones 0, and bits 1:0 of `MSG[10]` are 0 after every `ENCODE` on a
written read set (R112; log 25). -/
def Obligations.ZeroFrameAndPadBits : Prop :=
  ∀ s : State, readSetWritten .encode s = true → ∃ t, exec .encode s = .next t ∧ t.msg[10] &&& 0x03#8 = 0#8 ∧
    ((∀ i, i < 72 → getBit s.msg i = false) → s.typeField = 0#3 →
      t.msg = Vector.replicate 11 0#8 ∧ t.rem = 0#12 ∧ t.cw = Vector.replicate 22 0#8 ∧
        ∀ k, k < 58 → t.tone.toList.getD (if k < 29 then 7 + k else 14 + k) 7 = 0)

/-! ### Frames and purity -/

/-- 10_state.md R10, its table, read at the register port: a command that was accepted changes no byte outside its write set but
`STATUS`, and no error state. That the latch of the idle block keeps its word is the model's choice (log 7). -/
def Obligations.CommandsWriteOnlyTheirRegisters : Prop :=
  ∀ (i : Instr) (s t : State), (∀ n, i = .crc n → n ≤ 88) → exec i s = .next t →
    (t.err = s.err ∧ t.errCode = s.errCode ∧ t.typeField = s.typeField ∧ t.cmdLatch = s.cmdLatch ∧ t.script = s.script ∧
      t.results = s.results ∧ t.busy = false) ∧
    ∀ a : Byte, a ≠ 0x0C#8 →
      (match i with
        | .crc _ => a ≠ 0x0E#8 ∧ a ≠ 0x0F#8
        | .ldpc => ¬ (0x10 ≤ a.toNat ∧ a.toNat ≤ 0x25)
        | .map => ¬ (0x30 ≤ a.toNat ∧ a.toNat ≤ 0x7E)
        | .encode => a ≠ 0x09#8 ∧ a ≠ 0x0A#8 ∧ a ≠ 0x0E#8 ∧ a ≠ 0x0F#8 ∧ ¬ (0x10 ≤ a.toNat ∧ a.toNat ≤ 0x25) ∧
            ¬ (0x30 ≤ a.toNat ∧ a.toNat ≤ 0x7E)) →
      readReg t a = readReg s a

/-- 10_state.md R23: the result of a command is a function of its read set and the constants (a read set that is written, R112). -/
def Obligations.ResultsDependOnReadSetOnly : Prop :=
  ∀ (i : Instr) (s s' t t' : State), readSetWritten i s = true → readSetWritten i s' = true → exec i s = .next t →
    exec i s' = .next t' →
      match i with
      | .crc n => n ≤ 88 → (∀ j, j < n → getBit s.msg j = getBit s'.msg j) → t.rem = t'.rem
      | .ldpc => (∀ j, j < 87 → getBit s.msg j = getBit s'.msg j) → t.cw = t'.cw
      | .map => (∀ q, q < 174 → getBit s.cw q = getBit s'.cw q) → t.tone = t'.tone
      | .encode => (∀ j, j < 72 → getBit s.msg j = getBit s'.msg j) → s.typeField = s'.typeField →
          t.msg[9] = t'.msg[9] ∧ t.msg[10] = t'.msg[10] ∧ t.rem = t'.rem ∧ t.cw = t'.cw ∧ t.tone = t'.tone

/-- Which steps can change which data register, apart from one that performs a reset: `REM` a completing `CRC` or `ENCODE` (R13),
`TONE` a completing `MAP` or `ENCODE` (R15), `CW` a completing `LDPC` or `ENCODE` or a write (R14), `MSG` a completing `ENCODE` or a
write (R11), `TYPE` a write (R12). -/
def Obligations.DataRegistersChangeOnlyByTheirWriters : Prop :=
  ∀ s t : State, step s = .next t → (blockMoves s = true ∨ ∀ rest, s.script ≠ .reset :: rest) →
    (t.rem ≠ s.rem → blockMoves s = true ∧ (decode s.cmdLatch = .ok .encode ∨ ∃ n, decode s.cmdLatch = .ok (.crc n))) ∧
    (t.tone ≠ s.tone → blockMoves s = true ∧ (decode s.cmdLatch = .ok .encode ∨ decode s.cmdLatch = .ok .map)) ∧
    (t.cw ≠ s.cw → (blockMoves s = true ∧ (decode s.cmdLatch = .ok .encode ∨ decode s.cmdLatch = .ok .ldpc)) ∨
      (s.busy = false ∧ ∃ a v rest, s.script = .wr a v :: rest ∧ 0x10 ≤ a.toNat ∧ a.toNat ≤ 0x25)) ∧
    (t.msg ≠ s.msg → (blockMoves s = true ∧ decode s.cmdLatch = .ok .encode) ∨
      (s.busy = false ∧ ∃ a v rest, s.script = .wr a v :: rest ∧ a.toNat ≤ 0x0A)) ∧
    (t.typeField ≠ s.typeField → s.busy = false ∧ ∃ v rest, s.script = .wr 0x0B#8 v :: rest)

/-! ### What has been written since reset -/

/-- 70_reset_and_hazards.md R112: when a read set counts as written, and that a command with an unwritten one completes with an
unspecified value, the free value of this draw, in every register it writes, and changes no other. Drawing rather than faulting is
the model's choice (log 9). -/
def Obligations.UnwrittenReadSetGivesUnspecifiedResult : Prop :=
  (∀ s : State,
    (∀ n, n ≤ 88 → (readSetWritten (.crc n) s = true ↔ ∀ k (h : k < 11), k < (n + 7) / 8 → s.msgWritten[k] = true)) ∧
    (readSetWritten .ldpc s = true ↔ ∀ k (h : k < 11), s.msgWritten[k] = true) ∧
    (readSetWritten .map s = true ↔ ∀ k (h : k < 22), s.cwWritten[k] = true) ∧
    (readSetWritten .encode s = true ↔ (∀ k (h : k < 9), s.msgWritten[k] = true) ∧ s.typeWritten = true)) ∧
  ∀ (i : Instr) (s : State), (∀ n, i = .crc n → n ≤ 88) → readSetWritten i s = false →
    ∃ t, exec i s = .next t ∧ t.busy = false ∧ AgreeOutsideWriteSet i t s ∧
      match i with
      | .crc _ => t.rem = Config.freeRem s.draws
      | .ldpc => t.cw = freeCodeword s.draws
      | .map => t.tone = freeTones s.draws
      | .encode => t.msg[9] = Config.freeMsg s.draws 9 ∧ t.msg[10] = Config.freeMsg s.draws 10 ∧
          t.rem = Config.freeRem s.draws ∧ t.cw = freeCodeword s.draws ∧ t.tone = freeTones s.draws

/-- 70_reset_and_hazards.md R112, "by the host, or by an earlier command": what makes a register count as written since reset, step
by step, and that a reset clears the record. That the record is kept byte by byte is the model's choice (log 24). -/
def Obligations.WrittenRecordFollowsWrites : Prop :=
  ∀ s t : State, step s = .next t →
    (∀ rest, blockMoves s = false → s.script = .reset :: rest →
      (∀ k (h : k < 11), t.msgWritten[k] = false) ∧ t.typeWritten = false ∧ ∀ k (h : k < 22), t.cwWritten[k] = false) ∧
    ((blockMoves s = true ∨ ∀ rest, s.script ≠ .reset :: rest) →
      (∀ k (h : k < 11), t.msgWritten[k] = true ↔ s.msgWritten[k] = true ∨
        (s.busy = false ∧ ∃ v rest, s.script = .wr (BitVec.ofNat 8 k) v :: rest) ∨
        (blockMoves s = true ∧ decode s.cmdLatch = .ok .encode ∧ 9 ≤ k)) ∧
      (t.typeWritten = true ↔ s.typeWritten = true ∨ (s.busy = false ∧ ∃ v rest, s.script = .wr 0x0B#8 v :: rest)) ∧
      (∀ k (h : k < 22), t.cwWritten[k] = true ↔ s.cwWritten[k] = true ∨
        (s.busy = false ∧ ∃ v rest, s.script = .wr (BitVec.ofNat 8 (0x10 + k)) v :: rest) ∨
        (blockMoves s = true ∧ (decode s.cmdLatch = .ok .ldpc ∨ decode s.cmdLatch = .ok .encode))))

/-! ### The register port -/

/-- 20_memory.md R34: what every address reads, and what a write to every address leaves readable at every address. -/
def Obligations.RegisterMap : Prop :=
  ∀ s : State,
    (∀ k (h : k < 11), readReg s (BitVec.ofNat 8 k) = s.msg[k]) ∧
    readReg s 0x0B#8 = s.typeField.setWidth 8 ∧ readReg s 0x0C#8 = statusByte s ∧
    readReg s 0x0E#8 = (s.rem >>> 8).setWidth 8 ∧ readReg s 0x0F#8 = s.rem.setWidth 8 ∧
    (∀ k (h : k < 22), readReg s (BitVec.ofNat 8 (0x10 + k)) = s.cw[k]) ∧
    (∀ k (h : k < 79), readReg s (BitVec.ofNat 8 (0x30 + k)) = (s.tone[k]).setWidth 8) ∧
    (∀ a v b : Byte, readReg (writeReg a v s) b =
      if b ≠ a then readReg s b
      else if a.toNat ≤ 0x0A ∨ (0x10 ≤ a.toNat ∧ a.toNat ≤ 0x24) then v
      else if a = 0x0B#8 then v &&& 0x07#8
      else if a = 0x25#8 then v &&& 0xFC#8
      else readReg s a)

/-- 20_memory.md R37: reserved addresses read 0x00; a write to a reserved address or a read-only register changes nothing and
records no error, and a write to a hardwired bit does not change it. -/
def Obligations.ReservedAndReadOnlyWritesAreDropped : Prop :=
  ∀ (s : State) (a v : Byte),
    (a.toNat = 0x0D ∨ (0x26 ≤ a.toNat ∧ a.toNat ≤ 0x2F) ∨ 0x7F ≤ a.toNat → readReg s a = 0x00#8 ∧ writeReg a v s = s) ∧
    (a.toNat = 0x0C ∨ a.toNat = 0x0E ∨ a.toNat = 0x0F ∨ (0x30 ≤ a.toNat ∧ a.toNat ≤ 0x7E) → writeReg a v s = s) ∧
    (CodewordPadZero s → CodewordPadZero (writeReg a v s)) ∧
    (writeReg a v s).err = s.err ∧ (writeReg a v s).errCode = s.errCode ∧ (writeReg a v s).rem = s.rem ∧
    (writeReg a v s).tone = s.tone ∧ (writeReg a v s).busy = s.busy ∧ (writeReg a v s).cmdLatch = s.cmdLatch

/-- 20_memory.md R36: a read changes no register, whatever the address, an idle read returns the register's byte, and a register
write done twice is done once. -/
def Obligations.ReadsArePureAndWritesIdempotent : Prop :=
  ∀ (s : State) (a v : Byte),
    ((∀ b, readReg (hostRead a s) b = readReg s b) ∧ (hostRead a s).cmdLatch = s.cmdLatch) ∧
    (s.busy = false → hostRead a s = { s with results := s.results ++ [readReg s a] }) ∧
    writeReg a v (writeReg a v s) = writeReg a v s

/-- 20_memory.md R35: the two bytes of `REM`, high part first, are its zero-extension to 16 bits. -/
def Obligations.RemReadsMostSignificantFirst : Prop :=
  ∀ s : State, (readReg s 0x0E#8 ++ readReg s 0x0F#8 : BitVec 16) = s.rem.setWidth 16

/-- 10_state.md R16: the bits of `STATUS` as the host reads it, the codes of R96, and the two pins. -/
def Obligations.StatusRegisterBits : Prop :=
  ∀ s : State,
    (readReg s 0x0C#8).getLsbD 0 = s.busy ∧ (readReg s 0x0C#8).getLsbD 1 = s.err ∧
    (readReg s 0x0C#8).toNat / 4 = (match s.errCode with
      | .none => 0
      | .illegalCmd => 1
      | .crcLen => 2
      | .busyViolation => 3) ∧
    busyPin s = s.busy ∧ errPin s = s.err

/-- The host's actions on an idle block, one step each (R32, R39, R52): a write, a read, a wait that ends at once. -/
def Obligations.IdleHostActions : Prop :=
  ∀ (s : State) (rest : List HostAction), s.busy = false →
    (∀ a v, s.script = .wr a v :: rest → step s = .next (writeReg a v (afterAction s rest))) ∧
    (∀ a, s.script = .rd a :: rest →
      step s = .next { afterAction s rest with results := s.results ++ [readReg s a] }) ∧
    (s.script = .wait :: rest → step s = .next (afterAction s rest))

/-! ### Reset and invariants -/

/-- 70_reset_and_hazards.md R111, with the values R25 gives: a reset, of a busy or an idle block, leaves it idle with the error
record clear, the status register 0 and the hardwired bits 0; the host's script goes on (log 22). -/
def Obligations.ResetAbandonsCommand : Prop :=
  ∀ (s : State) (rest : List HostAction), (s.busy = false ∨ s.remaining ≠ 0) → s.script = .reset :: rest →
    ∃ t, step s = .next t ∧ t.busy = false ∧ t.err = false ∧ t.errCode = .none ∧ readReg t 0x0C#8 = 0x00#8 ∧
      CodewordPadZero t ∧ t.script = rest ∧ t.results = s.results

/-- 10_state.md R25: what the reset state is known to hold. -/
def Obligations.ResetStateIsIdleAndClear : Prop :=
  State.reset.busy = false ∧ State.reset.err = false ∧ State.reset.errCode = .none ∧
    readReg State.reset 0x0C#8 = 0x00#8 ∧ CodewordPadZero State.reset ∧
    ∀ j : Fin 79, readReg State.reset (BitVec.ofNat 8 (0x30 + j)) &&& 0xF8#8 = 0#8

/-- The reset state meets the invariant. -/
def Obligations.ResetMeetsInvariant : Prop := State.reset.Inv

/-- From every state that meets the invariant (hardwired bits 0, error record consistent, the latch of a busy block holds an
accepted command), a step answers a next state, and that state meets it. -/
def Obligations.StepKeepsInvariant : Prop :=
  ∀ s : State, s.Inv → ∃ t, step s = .next t ∧ t.Inv

/-! ### Instances and scripts -/

/-- 60_exceptions.md R106: an action on one instance has no effect on another, and is on its own instance what a step is. -/
def Obligations.InstancesAreIndependent : Prop :=
  ∀ (j : Nat) (all all' : List State), stepAmong j all = .next all' →
    (∀ k, k ≠ j → all'[k]? = all[k]?) ∧
    (∀ s, all[j]? = some s → ∃ t, step s = .next t ∧ all'[j]? = some t)

/-- 30_encoding.md R52: the expansions of the pseudo-instructions. -/
def Obligations.PseudoInstructionsExpand : Prop :=
  (∀ (b : Buffer 9) (k : Nat) (h : k < 9), (ScriptLine.ldpay b).expand[k]? = some (.wr (BitVec.ofNat 8 k) b[k])) ∧
  (∀ (b : Buffer 11) (k : Nat) (h : k < 11), (ScriptLine.ldmsg b).expand[k]? = some (.wr (BitVec.ofNat 8 k) b[k])) ∧
  (∀ (b : Buffer 22) (k : Nat) (h : k < 22), (ScriptLine.ldcw b).expand[k]? = some (.wr (BitVec.ofNat 8 (0x10 + k)) b[k])) ∧
  (∀ b : Buffer 9, (ScriptLine.ldpay b).expand.length = 9) ∧ (∀ b : Buffer 11, (ScriptLine.ldmsg b).expand.length = 11) ∧
  (∀ b : Buffer 22, (ScriptLine.ldcw b).expand.length = 22) ∧
  (∀ k, k < 79 → ScriptLine.rdtones.expand[k]? = some (.rd (BitVec.ofNat 8 (0x30 + k)))) ∧
  (∀ k, k < 22 → ScriptLine.rdcw.expand[k]? = some (.rd (BitVec.ofNat 8 (0x10 + k)))) ∧
  (∀ k, k < 11 → ScriptLine.rdmsg.expand[k]? = some (.rd (BitVec.ofNat 8 k))) ∧
  (ScriptLine.rdtones.expand.length = 79 ∧ ScriptLine.rdcw.expand.length = 22 ∧ ScriptLine.rdmsg.expand.length = 11) ∧
  ScriptLine.rdrem.expand = [.rd 0x0E#8, .rd 0x0F#8] ∧ (∀ t : Byte, (ScriptLine.settype t).expand = [.wr 0x0B#8 t]) ∧
  (∀ (b : Buffer 9) (t : Byte), (ScriptLine.enc b t).expand = (ScriptLine.ldpay b).expand ++ (ScriptLine.settype t).expand ++
    (ScriptLine.command .encode).expand ++ ScriptLine.wait.expand ++ ScriptLine.rdtones.expand)

/-- 30_encoding.md R51: a script assembles unless it holds a `CRC n` with n > 255, and each command is one `CMD` of its word. -/
def Obligations.AssemblerRefusesOversizedCrc : Prop :=
  (∀ lines : List ScriptLine, assemble lines = none ↔ ∃ n, 255 < n ∧ ScriptLine.command (.crc n) ∈ lines) ∧
    ∀ i : Instr, (ScriptLine.command i).expand = [.cmd (encode i)]
end

