-- ==== Sys2Proof/Laws/Buffers.lean ====
section
/-! SUPPORT. Stream bits of packed buffers (20_memory.md R30, R43): what setting a bit or a byte does to every bit. -/

namespace Sys2Proof.Machine

/-- Byte `j` of a buffer, by its total read. -/
theorem getD_setIfInBounds {len : Nat} (b : Buffer len) (j : Nat) (v : Byte) (k : Nat) :
    (b.setIfInBounds j v).getD k 0#8 = if j = k ∧ k < len then v else b.getD k 0#8 := by
  by_cases hk : k < len
  · by_cases hj : j = k <;> simp [Vector.getD, hk, hj]
  · simp [Vector.getD, hk]

theorem getD_set {len : Nat} (b : Buffer len) (j : Nat) (h : j < len) (v : Byte) (k : Nat) :
    (b.set j v h).getD k 0#8 = if j = k then v else b.getD k 0#8 := by
  by_cases hk : k < len
  · by_cases hj : j = k <;> simp [Vector.getD, hk, hj]
  · have hj : j ≠ k := by omega
    simp [Vector.getD, hk, hj]

theorem getD_of_lt {len : Nat} (b : Buffer len) {k : Nat} (h : k < len) : b.getD k 0#8 = b[k] := by
  simp [Vector.getD, h]

/-- The bit that `setbit` sets in its byte. -/
theorem getLsbD_one_shiftLeft (i j : Nat) : (1#8 <<< (7 - i % 8)).getLsbD (7 - j % 8) = decide (i % 8 = j % 8) := by
  have h1 : i % 8 < 8 := Nat.mod_lt _ (by decide)
  have h2 : j % 8 < 8 := Nat.mod_lt _ (by decide)
  generalize i % 8 = a at *
  generalize j % 8 = b at *
  revert h1 h2
  have : ∀ a : Fin 8, ∀ b : Fin 8, (1#8 <<< (7 - a.val)).getLsbD (7 - b.val) = decide (a.val = b.val) := by decide
  intro h1 h2
  exact this ⟨a, h1⟩ ⟨b, h2⟩

/-- `setbit` sets its own stream bit and leaves every other (R43). -/
theorem getBit_setBit {len : Nat} (b : Buffer len) (i j : Nat) (hi : i < 8 * len) :
    getBit (setBit b i) j = (decide (i = j) || getBit b j) := by
  unfold getBit setBit
  rw [getD_setIfInBounds]
  have hlen : i / 8 < len := by omega
  by_cases hq : i / 8 = j / 8
  · have hj : j / 8 < len := by omega
    rw [if_pos ⟨hq, hj⟩, BitVec.getLsbD_or, getLsbD_one_shiftLeft, hq, Bool.or_comm]
    congr 1
    exact decide_eq_decide.mpr ⟨fun h => by omega, fun h => by rw [h]⟩
  · have hne : i ≠ j := fun h => hq (by rw [h])
    rw [if_neg (fun h => hq h.1)]
    simp [hne]

@[simp] theorem getBit_zeroBuffer (len i : Nat) : getBit (zeroBuffer len) i = false := by
  unfold getBit zeroBuffer
  by_cases h : i / 8 < len <;> simp [Vector.getD, h]

/-- Writing byte `k` changes the stream bits of that byte alone. -/
theorem getBit_set {len : Nat} (b : Buffer len) (k : Nat) (h : k < len) (v : Byte) (i : Nat) :
    getBit (b.set k v h) i = if k = i / 8 then v.getLsbD (7 - i % 8) else getBit b i := by
  unfold getBit
  rw [getD_set]
  split <;> rfl

/-- Two buffers with the same stream bits are equal. -/
theorem buffer_ext {len : Nat} {a b : Buffer len} (h : ∀ i, i < 8 * len → getBit a i = getBit b i) : a = b := by
  apply Vector.ext
  intro k hk
  apply BitVec.eq_of_getLsbD_eq
  intro j hj
  have := h (8 * k + (7 - j)) (by omega)
  unfold getBit at this
  have h1 : (8 * k + (7 - j)) / 8 = k := by omega
  have h2 : 7 - (8 * k + (7 - j)) % 8 = j := by omega
  rw [h1, h2, getD_of_lt _ hk, getD_of_lt _ hk] at this
  exact this

@[simp] theorem leadingBits_length {len : Nat} (b : Buffer len) (n : Nat) : (leadingBits b n).length = n := by
  simp [leadingBits]

@[simp] theorem leadingBits_zero {len : Nat} (b : Buffer len) : leadingBits b 0 = [] := rfl

theorem leadingBits_succ {len : Nat} (b : Buffer len) (n : Nat) :
    leadingBits b (n + 1) = leadingBits b n ++ [getBit b n] := by
  simp [leadingBits, List.range_succ]

/-- The leading bits are a function of those bits alone. -/
theorem leadingBits_congr {la lb : Nat} {a : Buffer la} {b : Buffer lb} {n : Nat}
    (h : ∀ i, i < n → getBit a i = getBit b i) : leadingBits a n = leadingBits b n := by
  apply List.map_congr_left
  intro i hi
  exact h i (List.mem_range.mp hi)

/-- Stream bit `j` of the view `INFO` (R27). -/
theorem infoWord_getMsbD (msg : Buffer 11) (j : Nat) : (infoWord msg).getMsbD j = (decide (j < 87) && getBit msg j) := by
  unfold infoWord
  rw [BitVec.getMsbD_ofFnBE]
  by_cases h : j < 87 <;> simp [h]

/-- Stream bit `j` of the view `PAYLOAD` (R27). -/
theorem payloadWord_getMsbD (msg : Buffer 11) (j : Nat) :
    (payloadWord msg).getMsbD j = (decide (j < 72) && getBit msg j) := by
  unfold payloadWord
  rw [BitVec.getMsbD_ofFnBE]
  by_cases h : j < 72 <;> simp [h]

theorem bitVec_eq_of_getMsbD {w : Nat} {a b : BitVec w} (h : ∀ i, i < w → a.getMsbD i = b.getMsbD i) : a = b :=
  BitVec.eq_of_getMsbD_eq h

/-- The information word is a function of the first 87 stream bits alone (R78). -/
theorem infoWord_congr {a b : Buffer 11} (h : ∀ i, i < 87 → getBit a i = getBit b i) : infoWord a = infoWord b := by
  apply bitVec_eq_of_getMsbD
  intro i hi
  rw [infoWord_getMsbD, infoWord_getMsbD, h i hi]

end Sys2Proof.Machine
end

