-- ==== Sys2Proof/Laws/State.lean ====
section
/-! SUPPORT. One lemma per field per shared update of State, each true by rfl, so that no later proof unfolds an update. -/

namespace Sys2Proof.Machine

/-! ### complete -/

@[simp] theorem complete_msg (s : State) : (complete s).msg = s.msg := rfl
@[simp] theorem complete_typeField (s : State) : (complete s).typeField = s.typeField := rfl
@[simp] theorem complete_rem (s : State) : (complete s).rem = s.rem := rfl
@[simp] theorem complete_cw (s : State) : (complete s).cw = s.cw := rfl
@[simp] theorem complete_tone (s : State) : (complete s).tone = s.tone := rfl
@[simp] theorem complete_busy (s : State) : (complete s).busy = false := rfl
@[simp] theorem complete_err (s : State) : (complete s).err = s.err := rfl
@[simp] theorem complete_errCode (s : State) : (complete s).errCode = s.errCode := rfl
@[simp] theorem complete_cmdLatch (s : State) : (complete s).cmdLatch = s.cmdLatch := rfl
@[simp] theorem complete_msgWritten (s : State) : (complete s).msgWritten = s.msgWritten := rfl
@[simp] theorem complete_typeWritten (s : State) : (complete s).typeWritten = s.typeWritten := rfl
@[simp] theorem complete_cwWritten (s : State) : (complete s).cwWritten = s.cwWritten := rfl
@[simp] theorem complete_script (s : State) : (complete s).script = s.script := rfl
@[simp] theorem complete_results (s : State) : (complete s).results = s.results := rfl
@[simp] theorem complete_remaining (s : State) : (complete s).remaining = 0 := rfl
@[simp] theorem complete_draws (s : State) : (complete s).draws = s.draws := rfl

/-! ### raiseErr -/

@[simp] theorem raiseErr_msg (c : ErrCode) (s : State) : (raiseErr c s).msg = s.msg := rfl
@[simp] theorem raiseErr_typeField (c : ErrCode) (s : State) : (raiseErr c s).typeField = s.typeField := rfl
@[simp] theorem raiseErr_rem (c : ErrCode) (s : State) : (raiseErr c s).rem = s.rem := rfl
@[simp] theorem raiseErr_cw (c : ErrCode) (s : State) : (raiseErr c s).cw = s.cw := rfl
@[simp] theorem raiseErr_tone (c : ErrCode) (s : State) : (raiseErr c s).tone = s.tone := rfl
@[simp] theorem raiseErr_busy (c : ErrCode) (s : State) : (raiseErr c s).busy = s.busy := rfl
@[simp] theorem raiseErr_err (c : ErrCode) (s : State) : (raiseErr c s).err = true := rfl
@[simp] theorem raiseErr_errCode (c : ErrCode) (s : State) : (raiseErr c s).errCode = bif s.err then s.errCode else c := rfl
@[simp] theorem raiseErr_cmdLatch (c : ErrCode) (s : State) : (raiseErr c s).cmdLatch = s.cmdLatch := rfl
@[simp] theorem raiseErr_msgWritten (c : ErrCode) (s : State) : (raiseErr c s).msgWritten = s.msgWritten := rfl
@[simp] theorem raiseErr_typeWritten (c : ErrCode) (s : State) : (raiseErr c s).typeWritten = s.typeWritten := rfl
@[simp] theorem raiseErr_cwWritten (c : ErrCode) (s : State) : (raiseErr c s).cwWritten = s.cwWritten := rfl
@[simp] theorem raiseErr_script (c : ErrCode) (s : State) : (raiseErr c s).script = s.script := rfl
@[simp] theorem raiseErr_results (c : ErrCode) (s : State) : (raiseErr c s).results = s.results := rfl
@[simp] theorem raiseErr_remaining (c : ErrCode) (s : State) : (raiseErr c s).remaining = s.remaining := rfl
@[simp] theorem raiseErr_draws (c : ErrCode) (s : State) : (raiseErr c s).draws = s.draws := rfl

/-! ### accept -/

@[simp] theorem accept_msg (w : Word) (i : Instr) (s : State) : (accept w i s).msg = s.msg := rfl
@[simp] theorem accept_typeField (w : Word) (i : Instr) (s : State) : (accept w i s).typeField = s.typeField := rfl
@[simp] theorem accept_rem (w : Word) (i : Instr) (s : State) : (accept w i s).rem = s.rem := rfl
@[simp] theorem accept_cw (w : Word) (i : Instr) (s : State) : (accept w i s).cw = s.cw := rfl
@[simp] theorem accept_tone (w : Word) (i : Instr) (s : State) : (accept w i s).tone = s.tone := rfl
@[simp] theorem accept_busy (w : Word) (i : Instr) (s : State) : (accept w i s).busy = true := rfl
@[simp] theorem accept_err (w : Word) (i : Instr) (s : State) : (accept w i s).err = s.err := rfl
@[simp] theorem accept_errCode (w : Word) (i : Instr) (s : State) : (accept w i s).errCode = s.errCode := rfl
@[simp] theorem accept_cmdLatch (w : Word) (i : Instr) (s : State) : (accept w i s).cmdLatch = w := rfl
@[simp] theorem accept_msgWritten (w : Word) (i : Instr) (s : State) : (accept w i s).msgWritten = s.msgWritten := rfl
@[simp] theorem accept_typeWritten (w : Word) (i : Instr) (s : State) : (accept w i s).typeWritten = s.typeWritten := rfl
@[simp] theorem accept_cwWritten (w : Word) (i : Instr) (s : State) : (accept w i s).cwWritten = s.cwWritten := rfl
@[simp] theorem accept_script (w : Word) (i : Instr) (s : State) : (accept w i s).script = s.script := rfl
@[simp] theorem accept_results (w : Word) (i : Instr) (s : State) : (accept w i s).results = s.results := rfl
@[simp] theorem accept_remaining (w : Word) (i : Instr) (s : State) : (accept w i s).remaining = Config.latency i s.draws := rfl
@[simp] theorem accept_draws (w : Word) (i : Instr) (s : State) : (accept w i s).draws = s.draws + 1 := rfl

/-! ### emit -/

@[simp] theorem emit_msg (b : Byte) (s : State) : (emit b s).msg = s.msg := rfl
@[simp] theorem emit_typeField (b : Byte) (s : State) : (emit b s).typeField = s.typeField := rfl
@[simp] theorem emit_rem (b : Byte) (s : State) : (emit b s).rem = s.rem := rfl
@[simp] theorem emit_cw (b : Byte) (s : State) : (emit b s).cw = s.cw := rfl
@[simp] theorem emit_tone (b : Byte) (s : State) : (emit b s).tone = s.tone := rfl
@[simp] theorem emit_busy (b : Byte) (s : State) : (emit b s).busy = s.busy := rfl
@[simp] theorem emit_err (b : Byte) (s : State) : (emit b s).err = s.err := rfl
@[simp] theorem emit_errCode (b : Byte) (s : State) : (emit b s).errCode = s.errCode := rfl
@[simp] theorem emit_cmdLatch (b : Byte) (s : State) : (emit b s).cmdLatch = s.cmdLatch := rfl
@[simp] theorem emit_msgWritten (b : Byte) (s : State) : (emit b s).msgWritten = s.msgWritten := rfl
@[simp] theorem emit_typeWritten (b : Byte) (s : State) : (emit b s).typeWritten = s.typeWritten := rfl
@[simp] theorem emit_cwWritten (b : Byte) (s : State) : (emit b s).cwWritten = s.cwWritten := rfl
@[simp] theorem emit_script (b : Byte) (s : State) : (emit b s).script = s.script := rfl
@[simp] theorem emit_results (b : Byte) (s : State) : (emit b s).results = s.results ++ [b] := rfl
@[simp] theorem emit_remaining (b : Byte) (s : State) : (emit b s).remaining = s.remaining := rfl
@[simp] theorem emit_draws (b : Byte) (s : State) : (emit b s).draws = s.draws := rfl

/-! ### afterAction -/

@[simp] theorem afterAction_msg (s : State) (rest : List HostAction) : (afterAction s rest).msg = s.msg := rfl
@[simp] theorem afterAction_typeField (s : State) (rest : List HostAction) : (afterAction s rest).typeField = s.typeField := rfl
@[simp] theorem afterAction_rem (s : State) (rest : List HostAction) : (afterAction s rest).rem = s.rem := rfl
@[simp] theorem afterAction_cw (s : State) (rest : List HostAction) : (afterAction s rest).cw = s.cw := rfl
@[simp] theorem afterAction_tone (s : State) (rest : List HostAction) : (afterAction s rest).tone = s.tone := rfl
@[simp] theorem afterAction_busy (s : State) (rest : List HostAction) : (afterAction s rest).busy = s.busy := rfl
@[simp] theorem afterAction_err (s : State) (rest : List HostAction) : (afterAction s rest).err = s.err := rfl
@[simp] theorem afterAction_errCode (s : State) (rest : List HostAction) : (afterAction s rest).errCode = s.errCode := rfl
@[simp] theorem afterAction_cmdLatch (s : State) (rest : List HostAction) : (afterAction s rest).cmdLatch = s.cmdLatch := rfl
@[simp] theorem afterAction_msgWritten (s : State) (rest : List HostAction) : (afterAction s rest).msgWritten = s.msgWritten := rfl
@[simp] theorem afterAction_typeWritten (s : State) (rest : List HostAction) : (afterAction s rest).typeWritten = s.typeWritten := rfl
@[simp] theorem afterAction_cwWritten (s : State) (rest : List HostAction) : (afterAction s rest).cwWritten = s.cwWritten := rfl
@[simp] theorem afterAction_script (s : State) (rest : List HostAction) : (afterAction s rest).script = rest := rfl
@[simp] theorem afterAction_results (s : State) (rest : List HostAction) : (afterAction s rest).results = s.results := rfl
@[simp] theorem afterAction_remaining (s : State) (rest : List HostAction) : (afterAction s rest).remaining = s.remaining - 1 := rfl
@[simp] theorem afterAction_draws (s : State) (rest : List HostAction) : (afterAction s rest).draws = s.draws := rfl

/-! ### resetBlock -/

@[simp] theorem resetBlock_busy (s : State) : (resetBlock s).busy = false := rfl
@[simp] theorem resetBlock_err (s : State) : (resetBlock s).err = false := rfl
@[simp] theorem resetBlock_errCode (s : State) : (resetBlock s).errCode = ErrCode.none := rfl
@[simp] theorem resetBlock_msgWritten (s : State) : (resetBlock s).msgWritten = Vector.replicate 11 false := rfl
@[simp] theorem resetBlock_typeWritten (s : State) : (resetBlock s).typeWritten = false := rfl
@[simp] theorem resetBlock_cwWritten (s : State) : (resetBlock s).cwWritten = Vector.replicate 22 false := rfl
@[simp] theorem resetBlock_script (s : State) : (resetBlock s).script = s.script := rfl
@[simp] theorem resetBlock_results (s : State) : (resetBlock s).results = s.results := rfl
@[simp] theorem resetBlock_remaining (s : State) : (resetBlock s).remaining = 0 := rfl
@[simp] theorem resetBlock_draws (s : State) : (resetBlock s).draws = s.draws + 1 := rfl

/-! ### markEncoded -/

@[simp] theorem markEncoded_msg (s : State) : (markEncoded s).msg = s.msg := rfl
@[simp] theorem markEncoded_typeField (s : State) : (markEncoded s).typeField = s.typeField := rfl
@[simp] theorem markEncoded_rem (s : State) : (markEncoded s).rem = s.rem := rfl
@[simp] theorem markEncoded_cw (s : State) : (markEncoded s).cw = s.cw := rfl
@[simp] theorem markEncoded_tone (s : State) : (markEncoded s).tone = s.tone := rfl
@[simp] theorem markEncoded_busy (s : State) : (markEncoded s).busy = s.busy := rfl
@[simp] theorem markEncoded_err (s : State) : (markEncoded s).err = s.err := rfl
@[simp] theorem markEncoded_errCode (s : State) : (markEncoded s).errCode = s.errCode := rfl
@[simp] theorem markEncoded_cmdLatch (s : State) : (markEncoded s).cmdLatch = s.cmdLatch := rfl
@[simp] theorem markEncoded_script (s : State) : (markEncoded s).script = s.script := rfl
@[simp] theorem markEncoded_results (s : State) : (markEncoded s).results = s.results := rfl
@[simp] theorem markEncoded_remaining (s : State) : (markEncoded s).remaining = s.remaining := rfl
@[simp] theorem markEncoded_draws (s : State) : (markEncoded s).draws = s.draws := rfl
@[simp] theorem markEncoded_msgWritten (s : State) :
    (markEncoded s).msgWritten = (s.msgWritten.set 9 true).set 10 true := rfl
@[simp] theorem markEncoded_typeWritten (s : State) : (markEncoded s).typeWritten = s.typeWritten := rfl
@[simp] theorem markEncoded_cwWritten (s : State) : (markEncoded s).cwWritten = Vector.replicate 22 true := rfl

/-! ### unspecifiedResult: what no command writes -/

@[simp] theorem unspecifiedResult_typeField (i : Instr) (s : State) : (unspecifiedResult i s).typeField = s.typeField := by
  cases i <;> simp only [unspecifiedResult, markEncoded]
@[simp] theorem unspecifiedResult_typeWritten (i : Instr) (s : State) : (unspecifiedResult i s).typeWritten = s.typeWritten := by
  cases i <;> simp only [unspecifiedResult, markEncoded]
@[simp] theorem unspecifiedResult_busy (i : Instr) (s : State) : (unspecifiedResult i s).busy = s.busy := by
  cases i <;> simp only [unspecifiedResult, markEncoded]
@[simp] theorem unspecifiedResult_err (i : Instr) (s : State) : (unspecifiedResult i s).err = s.err := by
  cases i <;> simp only [unspecifiedResult, markEncoded]
@[simp] theorem unspecifiedResult_errCode (i : Instr) (s : State) : (unspecifiedResult i s).errCode = s.errCode := by
  cases i <;> simp only [unspecifiedResult, markEncoded]
@[simp] theorem unspecifiedResult_cmdLatch (i : Instr) (s : State) : (unspecifiedResult i s).cmdLatch = s.cmdLatch := by
  cases i <;> simp only [unspecifiedResult, markEncoded]
@[simp] theorem unspecifiedResult_script (i : Instr) (s : State) : (unspecifiedResult i s).script = s.script := by
  cases i <;> simp only [unspecifiedResult, markEncoded]
@[simp] theorem unspecifiedResult_results (i : Instr) (s : State) : (unspecifiedResult i s).results = s.results := by
  cases i <;> simp only [unspecifiedResult, markEncoded]
@[simp] theorem unspecifiedResult_remaining (i : Instr) (s : State) : (unspecifiedResult i s).remaining = s.remaining := by
  cases i <;> simp only [unspecifiedResult, markEncoded]
@[simp] theorem unspecifiedResult_draws (i : Instr) (s : State) : (unspecifiedResult i s).draws = s.draws + 1 := by
  cases i <;> simp only [unspecifiedResult, markEncoded]

/-! ### unspecifiedResult: what a command writes -/

@[simp] theorem unspecifiedResult_rem (i : Instr) (s : State) : (unspecifiedResult i s).rem =
    match i with
    | .crc _ => Config.freeRem s.draws
    | .ldpc => s.rem
    | .map => s.rem
    | .encode => Config.freeRem s.draws := by
  cases i <;> simp only [unspecifiedResult, markEncoded]
@[simp] theorem unspecifiedResult_cw (i : Instr) (s : State) : (unspecifiedResult i s).cw =
    match i with
    | .crc _ => s.cw
    | .ldpc => freeCodeword s.draws
    | .map => s.cw
    | .encode => freeCodeword s.draws := by
  cases i <;> simp only [unspecifiedResult, markEncoded]
@[simp] theorem unspecifiedResult_tone (i : Instr) (s : State) : (unspecifiedResult i s).tone =
    match i with
    | .crc _ => s.tone
    | .ldpc => s.tone
    | .map => freeTones s.draws
    | .encode => freeTones s.draws := by
  cases i <;> simp only [unspecifiedResult, markEncoded]
@[simp] theorem unspecifiedResult_msg (i : Instr) (s : State) : (unspecifiedResult i s).msg =
    match i with
    | .crc _ => s.msg
    | .ldpc => s.msg
    | .map => s.msg
    | .encode => (s.msg.set 9 (Config.freeMsg s.draws 9)).set 10 (Config.freeMsg s.draws 10) := by
  cases i <;> simp only [unspecifiedResult, markEncoded]
@[simp] theorem unspecifiedResult_msgWritten (i : Instr) (s : State) : (unspecifiedResult i s).msgWritten =
    match i with
    | .crc _ => s.msgWritten
    | .ldpc => s.msgWritten
    | .map => s.msgWritten
    | .encode => (s.msgWritten.set 9 true).set 10 true := by
  cases i <;> simp only [unspecifiedResult, markEncoded]
@[simp] theorem unspecifiedResult_cwWritten (i : Instr) (s : State) : (unspecifiedResult i s).cwWritten =
    match i with
    | .crc _ => s.cwWritten
    | .ldpc => Vector.replicate 22 true
    | .map => s.cwWritten
    | .encode => Vector.replicate 22 true := by
  cases i <;> simp only [unspecifiedResult, markEncoded]

end Sys2Proof.Machine
end

