-- ==== Sys2Proof/Laws/Checksum.lean ====
section
/-! SUPPORT. The remainder register: one step is linear over GF(2), and keeps bit 0 clear (40_crc12.md R61, R65). -/

namespace Sys2Proof.Machine

@[simp] theorem crc12_nil : crc12 [] = 0#12 := rfl

/-- The last bit enters last (R61). -/
theorem crc12_snoc (s : List Bool) (b : Bool) : crc12 (s ++ [b]) = crcStep (crc12 s) b := by
  simp [crc12, List.foldl_append]

/-- One step on a pair of registers and data bits. -/
theorem crcStep_xor (r t : BitVec 12) (a b : Bool) : crcStep (r ^^^ t) (a ^^ b) = crcStep r a ^^^ crcStep t b := by
  have hs : (r ^^^ t) <<< 1 = (r <<< 1) ^^^ (t <<< 1) := BitVec.shiftLeft_xor_distrib r t 1
  unfold crcStep
  rw [BitVec.msb_xor, hs]
  generalize r <<< 1 = x
  generalize t <<< 1 = y
  have h1 : x ^^^ y ^^^ Config.poly = x ^^^ (y ^^^ Config.poly) := BitVec.xor_assoc x y _
  have h2 : x ^^^ y ^^^ Config.poly = x ^^^ Config.poly ^^^ y := by ac_rfl
  have h3 : x ^^^ y = x ^^^ Config.poly ^^^ (y ^^^ Config.poly) := by
    rw [show x ^^^ Config.poly ^^^ (y ^^^ Config.poly) = x ^^^ y ^^^ (Config.poly ^^^ Config.poly) by ac_rfl]
    simp
  cases r.msb <;> cases t.msb <;> cases a <;> cases b <;> first | rfl | exact h1 | exact h2 | exact h3

/-- A zero bit into a zero register leaves zero. -/
@[simp] theorem crcStep_zero : crcStep 0#12 false = 0#12 := by decide

/-- Bit 0 of the register is clear after every step: `POLY` is even and the shift brings in 0. -/
theorem crcStep_getLsbD_zero (r : BitVec 12) (b : Bool) : (crcStep r b).getLsbD 0 = false := by
  unfold crcStep
  split <;> simp [Config.poly]

/-- `CRC n` on an accepted count and a written read set: `REM` is the checksum, `BUSY` is 0, nothing else changes (R63). -/
theorem execCrc_of_written {n : Nat} {s : State} (h : n ≤ 88) (hw : readSetWritten (.crc n) s = true) :
    execCrc n s = .next (complete { s with rem := crc12 (leadingBits s.msg n) }) := by
  unfold execCrc
  rw [if_pos h, if_pos hw]

/-- `CRC n` on an accepted count and an unwritten read set: `REM` is unspecified (R112). -/
theorem execCrc_of_unwritten {n : Nat} {s : State} (h : n ≤ 88) (hw : readSetWritten (.crc n) s = false) :
    execCrc n s = .next (complete (unspecifiedResult (.crc n) s)) := by
  unfold execCrc
  rw [if_pos h, if_neg (by simp [hw])]

/-- `CRC n` on a refused count: the error is recorded, `BUSY` is 0, nothing else changes (log 13). -/
theorem execCrc_of_gt {n : Nat} (h : 88 < n) (s : State) : execCrc n s = .next (complete (raiseErr .crcLen s)) :=
  if_neg (Nat.not_le.mpr h)

end Sys2Proof.Machine
end

