-- ==== Sys2Proof/Laws/Decode.lean ====
section
/-! SUPPORT. What the decoder answers, by the row a word matches (30_encoding.md R47). -/

namespace Sys2Proof

/-- Everything the decoder can answer. -/
theorem decode_cases (w : Word) :
    (w &&& 0xFF00#16 = 0x1000#16 ∧ decode w = .ok (.crc (nField w).toNat)) ∨
    (w = 0x2000#16 ∧ decode w = .ok .ldpc) ∨
    (w = 0x3000#16 ∧ decode w = .ok .map) ∨
    (w = 0x4000#16 ∧ decode w = .ok .encode) ∨
    (w &&& 0xFF00#16 ≠ 0x1000#16 ∧ w ≠ 0x2000#16 ∧ w ≠ 0x3000#16 ∧ w ≠ 0x4000#16 ∧
      decode w = .error (rejectReason w)) := by
  have hm : w &&& 0xFFFF#16 = w := BitVec.and_allOnes
  unfold decode
  rw [hm]
  by_cases h1 : w &&& 0xFF00#16 = 0x1000#16
  · exact .inl ⟨h1, if_pos h1⟩
  rw [if_neg h1]
  by_cases h2 : w = 0x2000#16
  · exact .inr (.inl ⟨h2, if_pos h2⟩)
  rw [if_neg h2]
  by_cases h3 : w = 0x3000#16
  · exact .inr (.inr (.inl ⟨h3, if_pos h3⟩))
  rw [if_neg h3]
  by_cases h4 : w = 0x4000#16
  · exact .inr (.inr (.inr (.inl ⟨h4, if_pos h4⟩)))
  rw [if_neg h4]
  exact .inr (.inr (.inr (.inr ⟨h1, h2, h3, h4, rfl⟩)))

/-- The operand of a decoded `CRC` fits its eight bits (R46). -/
theorem nField_lt (w : Word) : (nField w).toNat < 256 := (nField w).isLt

end Sys2Proof
end

