-- ==== Sys2Proof/Laws/Ldpc.lean ====
section
/-! SUPPORT. The parity of a bit vector, the intermediate vector and the scatter loop (41_ldpc.md R70 to R73): one lemma each that
says what its bits are. -/

namespace Sys2Proof.Machine

/-- An exclusive-or over a list of indexes, one index more. -/
theorem foldl_xor_start (f : Nat → Bool) (l : List Nat) (b : Bool) :
    l.foldl (fun p i => p ^^ f i) b = (b ^^ l.foldl (fun p i => p ^^ f i) false) := by
  induction l generalizing b with
  | nil => simp
  | cons x xs ih =>
    simp only [List.foldl_cons]
    rw [ih (b ^^ f x), ih (false ^^ f x)]
    simp

theorem foldl_xor_xor (f g : Nat → Bool) (l : List Nat) :
    l.foldl (fun p i => p ^^ (f i ^^ g i)) false =
      (l.foldl (fun p i => p ^^ f i) false ^^ l.foldl (fun p i => p ^^ g i) false) := by
  induction l with
  | nil => rfl
  | cons x xs ih =>
    simp only [List.foldl_cons]
    rw [foldl_xor_start (fun i => f i ^^ g i), foldl_xor_start f, foldl_xor_start g, ih]
    cases f x <;> cases g x <;> simp

/-- Parity is linear over GF(2). -/
theorem parity_xor {w : Nat} (a b : BitVec w) : parity (a ^^^ b) = (parity a ^^ parity b) := by
  unfold parity
  simp only [BitVec.getLsbD_xor]
  exact foldl_xor_xor _ _ _

@[simp] theorem parity_zero (w : Nat) : parity (0#w) = false := by
  unfold parity
  induction List.range w with
  | nil => rfl
  | cons x xs ih => simp

/-- Bit `p` of the intermediate vector (R72). -/
theorem itmp_getMsbD (gen : Fin 87 → BitVec 87) (info : BitVec 87) (p : Nat) :
    (itmp gen info).getMsbD p =
      if p < 87 then (parityWord gen info).getMsbD p else info.getMsbD (p - 87) := by
  unfold itmp
  rw [BitVec.getMsbD_append]
  by_cases h : p < 87
  · rw [if_neg (by omega), if_pos h]
  · rw [if_pos (by omega), if_neg h]

/-- Parity bit `i` (R70). -/
theorem parityWord_getMsbD (gen : Fin 87 → BitVec 87) (info : BitVec 87) (i : Fin 87) :
    (parityWord gen info).getMsbD i = parity (info &&& gen i) := by
  unfold parityWord
  rw [BitVec.getMsbD_ofFnBE, dif_pos i.isLt]

/-- What the loop of R73 leaves in a buffer after the positions of a list: the bits it had, and those the list's 1-bits name. -/
theorem getBit_foldl_setBit (col : Fin 174 → Fin 174) (v : BitVec 174) (l : List (Fin 174)) (c : Buffer 22) (q : Nat) :
    getBit (l.foldl (fun c (p : Fin 174) => if v.getMsbD p then setBit c (col p) else c) c) q =
      (getBit c q || l.any fun p => v.getMsbD p && decide ((col p).val = q)) := by
  induction l generalizing c with
  | nil => simp
  | cons p ps ih =>
    rw [List.foldl_cons, ih, List.any_cons]
    by_cases hv : v.getMsbD p
    · rw [if_pos hv, getBit_setBit _ _ _ (by have := (col p).isLt; omega), hv]
      cases decide ((col p).val = q) <;> cases getBit c q <;> simp
    · simp [hv]

/-- Bit `q` of the scattered vector is 1 exactly when some 1-bit of it is sent there (R73). -/
theorem getBit_scatter (col : Fin 174 → Fin 174) (v : BitVec 174) (q : Nat) :
    getBit (scatter col v) q = true ↔ ∃ p : Fin 174, v.getMsbD p = true ∧ (col p).val = q := by
  unfold scatter
  rw [getBit_foldl_setBit]
  simp [List.any_eq_true]

/-- A position no column names stays 0; the two pad bits are such positions (R74). -/
theorem getBit_scatter_pad (col : Fin 174 → Fin 174) (v : BitVec 174) {q : Nat} (h : 174 ≤ q) :
    getBit (scatter col v) q = false := by
  rw [Bool.eq_false_iff]
  intro hc
  obtain ⟨p, _, hp⟩ := (getBit_scatter col v q).mp hc
  have := (col p).isLt
  omega

/-- The pad bits of every encoded word are 0 (R74). -/
theorem getBit_codewordOf_pad (msg : Buffer 11) {q : Nat} (h : 174 ≤ q) : getBit (codewordOf msg) q = false := by
  unfold codewordOf ldpc174
  exact getBit_scatter_pad _ _ h

/-- Where the columns are distinct, each target holds its own bit (R73). -/
theorem getBit_scatter_col {col : Fin 174 → Fin 174} (hcol : Function.Injective col) (v : BitVec 174) (p : Fin 174) :
    getBit (scatter col v) (col p) = v.getMsbD p := by
  rw [Bool.eq_iff_iff, getBit_scatter]
  constructor
  · rintro ⟨p', hv, hp⟩
    rwa [hcol (Fin.ext hp)] at hv
  · intro hv
    exact ⟨p, hv, rfl⟩

/-- `LDPC` on a written read set: `CW` is the codeword and counts as written, `BUSY` is 0, nothing else changes (R75). -/
theorem execLdpc_of_written {s : State} (hw : readSetWritten .ldpc s = true) :
    execLdpc s = .next (complete { s with cw := codewordOf s.msg, cwWritten := Vector.replicate 22 true }) := if_pos hw

/-- `LDPC` on an unwritten read set: `CW` is unspecified (R112). -/
theorem execLdpc_of_unwritten {s : State} (hw : readSetWritten .ldpc s = false) :
    execLdpc s = .next (complete (unspecifiedResult .ldpc s)) := if_neg (by simp [hw])

end Sys2Proof.Machine
end

