-- ==== Sys2Proof/Laws/Frame.lean ====
section
/-! SUPPORT. The tone sequence by blocks and the packed message buffer by stream bits (42_frame.md R80 to R86). -/

namespace Sys2Proof.Machine

theorem dataBlock_getElem (cw : Buffer 22) (first k : Nat) (h : k < 29) :
    (dataBlock cw first)[k] = dataSymbol cw (first + k) := by
  simp [dataBlock]

/-- Which block a tone index falls in, and what stands there (R85, R86). -/
theorem tonemap_getElem (cw : Buffer 22) (j : Nat) (h : j < 79) :
    (tonemap cw)[j] =
      if h1 : j < 7 then Config.costas[j]
      else if j < 36 then dataSymbol cw (j - 7)
      else if h2 : j < 43 then Config.costas[j - 36]
      else if j < 72 then dataSymbol cw (j - 14)
      else Config.costas[j - 72] := by
  unfold tonemap
  rw [Vector.getElem_cast]
  simp only [Vector.getElem_append]
  by_cases h1 : j < 7
  · simp only [h1, show j < 7 + 29 + 7 + 29 by omega, show j < 7 + 29 + 7 by omega, show j < 7 + 29 by omega, dif_pos]
  by_cases h2 : j < 36
  · simp only [h1, h2, show j < 7 + 29 + 7 + 29 by omega, show j < 7 + 29 + 7 by omega, dif_pos, dif_neg,
      not_false_eq_true, if_pos, dataBlock_getElem, Nat.zero_add]
  by_cases h3 : j < 43
  · simp only [h1, h2, h3, show j < 7 + 29 + 7 + 29 by omega, dif_pos, dif_neg, not_false_eq_true, if_neg]
  by_cases h4 : j < 72
  · simp only [h1, h2, h3, h4, dif_pos, dif_neg, not_false_eq_true, if_pos, if_neg, dataBlock_getElem]
    rw [show 29 + (j - (7 + 29 + 7)) = j - 14 by omega]
  · simp only [h1, h2, h3, h4, dif_neg, not_false_eq_true, if_neg]

/-- The tones are a function of the 174 codeword bits alone (R86). -/
theorem dataSymbol_congr {a b : Buffer 22} {k : Nat} (hk : k < 58) (h : ∀ q, q < 174 → getBit a q = getBit b q) :
    dataSymbol a k = dataSymbol b k := by
  unfold dataSymbol
  rw [h (3 * k) (by omega), h (3 * k + 1) (by omega), h (3 * k + 2) (by omega)]

/-- A data symbol gives back the three bits it was made of (R86). -/
theorem dataSymbol_bits (cw : Buffer 22) (k : Nat) :
    (dataSymbol cw k).getMsbD 0 = getBit cw (3 * k) ∧ (dataSymbol cw k).getMsbD 1 = getBit cw (3 * k + 1) ∧
      (dataSymbol cw k).getMsbD 2 = getBit cw (3 * k + 2) := by
  unfold dataSymbol
  generalize getBit cw (3 * k) = a
  generalize getBit cw (3 * k + 1) = b
  generalize getBit cw (3 * k + 2) = c
  revert a b c
  decide

/-- Equal symbols come from equal bits: a codeword bit is read off the symbol it lies in (R86). -/
theorem getBit_eq_of_dataSymbol_eq {a b : Buffer 22} {q : Nat} (h : dataSymbol a (q / 3) = dataSymbol b (q / 3)) :
    getBit a q = getBit b q := by
  obtain ⟨a0, a1, a2⟩ := dataSymbol_bits a (q / 3)
  obtain ⟨b0, b1, b2⟩ := dataSymbol_bits b (q / 3)
  rw [h] at a0 a1 a2
  have hq : q = 3 * (q / 3) ∨ q = 3 * (q / 3) + 1 ∨ q = 3 * (q / 3) + 2 := by omega
  rcases hq with e | e | e
  · rw [← e] at a0 b0
    exact a0.symm.trans b0
  · rw [← e] at a1 b1
    exact a1.symm.trans b1
  · rw [← e] at a2 b2
    exact a2.symm.trans b2

/-- A data symbol as the weighted sum of its three bits, which does not overflow (R67, R86). -/
theorem dataSymbol_toNat (cw : Buffer 22) (k : Nat) :
    (dataSymbol cw k).toNat =
      4 * (getBit cw (3 * k)).toNat + 2 * (getBit cw (3 * k + 1)).toNat + (getBit cw (3 * k + 2)).toNat := by
  unfold dataSymbol
  generalize getBit cw (3 * k) = a
  generalize getBit cw (3 * k + 1) = b
  generalize getBit cw (3 * k + 2) = c
  revert a b c
  decide

/-- Byte 9 as step 1 builds it (R81). -/
theorem typeByte_getLsbD (ty : BitVec 3) (j : Nat) (hj : j < 8) :
    (ty.setWidth 8 <<< 5).getLsbD j = if j < 5 then false else ty.getLsbD (j - 5) := by
  have : ∀ ty : BitVec 3, ∀ j : Fin 8,
      (ty.setWidth 8 <<< 5).getLsbD j = if j.val < 5 then false else ty.getLsbD (j.val - 5) := by decide
  exact this ty ⟨j, hj⟩

/-- Stream bits of the buffer after step 1: the type in 72..74, zeros in 75..79, the rest as before (R81, R82). -/
theorem getBit_buildFrame (ty : BitVec 3) (msg : Buffer 11) (i : Nat) :
    getBit (buildFrame ty msg) i =
      if 72 ≤ i ∧ i < 80 then (if i < 75 then ty.getLsbD (74 - i) else false) else getBit msg i := by
  unfold buildFrame
  rw [getBit_set]
  by_cases h : 72 ≤ i ∧ i < 80
  · rw [if_pos (by omega), if_pos h, typeByte_getLsbD _ _ (by omega)]
    by_cases h5 : i < 75
    · rw [if_neg (by omega), if_pos h5]
      congr 1
      omega
    · rw [if_pos (by omega), if_neg h5]
  · rw [if_neg (by omega), if_neg h]

/-- Stream bits of the buffer after step 2b: the checksum is or-ed into 75..79 and stored in 80..86, bit 87 is 0, the rest is as
before (R83). -/
theorem getBit_packChecksum (c : BitVec 12) (msg : Buffer 11) (i : Nat) :
    getBit (packChecksum c msg) i =
      if 80 ≤ i ∧ i < 87 then c.getLsbD (86 - i)
      else if i = 87 then false
      else if 75 ≤ i ∧ i < 80 then (getBit msg i || c.getLsbD (86 - i))
      else getBit msg i := by
  have h9 : getBit msg i = (msg.getD (i / 8) 0#8).getLsbD (7 - i % 8) := rfl
  unfold packChecksum
  simp only [Config.crcShift]
  rw [getBit_set]
  by_cases h10 : 10 = i / 8
  · rw [if_pos h10]
    simp only [BitVec.getLsbD_extractLsb', BitVec.getLsbD_shiftLeft, BitVec.getLsbD_setWidth, Nat.zero_add]
    by_cases h87 : i = 87
    · subst h87
      simp
    · have h80 : 80 ≤ i ∧ i < 87 := by omega
      rw [if_pos h80]
      have e : 7 - i % 8 - 1 = 86 - i := by omega
      have e2 : ¬ (7 - i % 8 < 1) := by omega
      rw [e]
      simp [show 7 - i % 8 < 8 by omega, show 7 - i % 8 < 13 by omega, e2, show 86 - i < 13 by omega]
  · rw [if_neg h10, getBit_set]
    have n80 : ¬ (80 ≤ i ∧ i < 87) := by omega
    have n87 : ¬ (i = 87) := by omega
    rw [if_neg n80, if_neg n87]
    by_cases h9' : 9 = i / 8
    · rw [if_pos h9']
      simp only [BitVec.getLsbD_or, BitVec.getLsbD_extractLsb', BitVec.getLsbD_shiftLeft, BitVec.getLsbD_setWidth]
      have hm : msg[9].getLsbD (7 - i % 8) = getBit msg i := by
        rw [h9, ← h9', getD_of_lt _ (by decide)]
      rw [hm]
      by_cases h75 : 75 ≤ i ∧ i < 80
      · rw [if_pos h75]
        have e : 8 + (7 - i % 8) - 1 = 86 - i := by omega
        rw [e]
        simp [show 7 - i % 8 < 8 by omega, show 7 - i % 8 < 5 by omega, show 8 + (7 - i % 8) < 13 by omega,
          show 86 - i < 13 by omega, show ¬ (8 + (7 - i % 8) < 1) by omega]
      · rw [if_neg h75]
        simp [show ¬ (7 - i % 8 < 5) by omega]
    · rw [if_neg h9', if_neg (by omega)]

/-- Byte 9 takes the checksum's top five bits (R83). -/
theorem checksumHigh_byte :
    ∀ c : BitVec 12, (((c.setWidth 13 <<< 1).extractLsb' 8 5).setWidth 8 : Byte) = (c >>> 7).setWidth 8 := by
  decide +kernel

/-- Byte 10 takes the other seven, shifted (R83). -/
theorem checksumLow_byte :
    ∀ c : BitVec 12, ((c.setWidth 13 <<< 1).extractLsb' 0 8 : Byte) = c.setWidth 8 <<< 1 := by
  decide +kernel

/-- The packed buffer byte by byte: byte 9 is type and checksum high part, byte 10 the checksum low part and the pad (R83, D5). -/
theorem packChecksum_buildFrame (c : BitVec 12) (ty : BitVec 3) (msg : Buffer 11) :
    packChecksum c (buildFrame ty msg) =
      (msg.set 9 ((ty.setWidth 8 <<< 5) ||| (c >>> 7).setWidth 8)).set 10 (c.setWidth 8 <<< 1) := by
  unfold packChecksum buildFrame
  simp only [Config.crcShift, checksumHigh_byte, checksumLow_byte]
  simp

/-- What `ENCODE` leaves in `MSG` before the checksum is known: the frame with `TYPE` in it. -/
abbrev frameOf (s : State) : Buffer 11 := buildFrame s.typeField s.msg

/-- The frame checksum of `ENCODE` (R82). -/
abbrev frameChecksum (s : State) : BitVec 12 := crc12 (leadingBits (frameOf s) 76)

/-- `MSG` after `ENCODE` (R83). -/
abbrev packedFrame (s : State) : Buffer 11 := packChecksum (frameChecksum s) (frameOf s)

/-- The stages of `ENCODE` in one equation (R88). -/
theorem encodeFrame_eq (s : State) :
    encodeFrame s = markEncoded { s with
      msg := packedFrame s, rem := frameChecksum s, cw := codewordOf (packedFrame s),
      tone := tonemap (codewordOf (packedFrame s)) } := by
  simp only [encodeFrame]

/-- `MAP` on a written read set: the tones of `CW`, `BUSY` is 0, nothing else changes (R87). -/
theorem execMap_of_written {s : State} (hw : readSetWritten .map s = true) :
    execMap s = .next (complete { s with tone := tonemap s.cw }) := if_pos hw

/-- `MAP` on an unwritten read set: `TONE` is unspecified (R112). -/
theorem execMap_of_unwritten {s : State} (hw : readSetWritten .map s = false) :
    execMap s = .next (complete (unspecifiedResult .map s)) := if_neg (by simp [hw])

/-- `ENCODE` on a written read set: the stages of R88, and nothing else changes. -/
theorem execEncode_of_written {s : State} (hw : readSetWritten .encode s = true) :
    execEncode s = .next (complete (markEncoded { s with
      msg := packedFrame s, rem := frameChecksum s, cw := codewordOf (packedFrame s),
      tone := tonemap (codewordOf (packedFrame s)) })) := by
  unfold execEncode
  rw [if_pos hw, encodeFrame_eq]

/-- `ENCODE` on an unwritten read set: every register it writes is unspecified (R112). -/
theorem execEncode_of_unwritten {s : State} (hw : readSetWritten .encode s = false) :
    execEncode s = .next (complete (unspecifiedResult .encode s)) := if_neg (by simp [hw])

end Sys2Proof.Machine
end

