-- ==== Sys2Proof/Laws/PerInstr.lean ====
section
/-! SUPPORT. The family EncodingFields: what stands in the three fields of a command's word (30_encoding.md R45, R47). -/

namespace Sys2Proof.Laws.EncodingFields

/-- The `zero` field of the word is 0000 and `op` is one of the four of the opcode map (R45, R47). -/
def Statement (i : Instr) : Prop :=
  zeroField (encode i) = 0x0#4 ∧
    opField (encode i) = match i with
      | .crc _ => 0x1#4
      | .ldpc => 0x2#4
      | .map => 0x3#4
      | .encode => 0x4#4

theorem crc (n : Nat) : Statement (.crc n) := by
  unfold Statement
  simp only [encode]
  generalize BitVec.ofNat 8 n = x
  revert x
  decide

theorem ldpc : Statement .ldpc := by
  unfold Statement
  decide

theorem map : Statement .map := by
  unfold Statement
  decide

theorem encode : Statement .encode := by
  unfold Statement
  decide

end Sys2Proof.Laws.EncodingFields
end

