-- ==== Sys2Proof/Laws/Port.lean ====
section
/-! SUPPORT. The register address map by its ranges (20_memory.md R34), and what a write to the register port can do. -/

namespace Sys2Proof.Machine

theorem portOf_msg (a : Byte) (b : Fin 11) : portOf a = .msg b ↔ a.toNat = b.val := by
  unfold portOf
  have := b.isLt
  split_ifs <;> simp [Fin.ext_iff] <;> omega

theorem portOf_typeField (a : Byte) : portOf a = .typeField ↔ a.toNat = 0x0B := by
  unfold portOf
  split_ifs <;> simp <;> omega

theorem portOf_status (a : Byte) : portOf a = .status ↔ a.toNat = 0x0C := by
  unfold portOf
  split_ifs <;> simp <;> omega

theorem portOf_remHigh (a : Byte) : portOf a = .remHigh ↔ a.toNat = 0x0E := by
  unfold portOf
  split_ifs <;> simp <;> omega

theorem portOf_remLow (a : Byte) : portOf a = .remLow ↔ a.toNat = 0x0F := by
  unfold portOf
  split_ifs <;> simp <;> omega

theorem portOf_cw (a : Byte) (b : Fin 22) : portOf a = .cw b ↔ a.toNat = 0x10 + b.val := by
  unfold portOf
  have := b.isLt
  split_ifs <;> simp [Fin.ext_iff] <;> omega

theorem portOf_tone (a : Byte) (j : Fin 79) : portOf a = .tone j ↔ a.toNat = 0x30 + j.val := by
  unfold portOf
  have := j.isLt
  split_ifs <;> simp [Fin.ext_iff] <;> omega

theorem portOf_reserved (a : Byte) :
    portOf a = .reserved ↔ a.toNat = 0x0D ∨ (0x26 ≤ a.toNat ∧ a.toNat ≤ 0x2F) ∨ 0x7F ≤ a.toNat := by
  unfold portOf
  split_ifs <;> simp <;> omega

/-- Two addresses of one register are one address. -/
theorem eq_of_portOf_eq {a b : Byte} (h : portOf a = portOf b) (hr : portOf b ≠ .reserved) : a = b := by
  apply BitVec.eq_of_toNat_eq
  cases hp : portOf b with
  | msg k => rw [hp, portOf_msg] at h; rw [portOf_msg] at hp; omega
  | typeField => rw [hp, portOf_typeField] at h; rw [portOf_typeField] at hp; omega
  | status => rw [hp, portOf_status] at h; rw [portOf_status] at hp; omega
  | remHigh => rw [hp, portOf_remHigh] at h; rw [portOf_remHigh] at hp; omega
  | remLow => rw [hp, portOf_remLow] at h; rw [portOf_remLow] at hp; omega
  | cw k => rw [hp, portOf_cw] at h; rw [portOf_cw] at hp; omega
  | tone j => rw [hp, portOf_tone] at h; rw [portOf_tone] at hp; omega
  | reserved => exact absurd hp hr

/-- Everything a write to the register port can do: one message byte, the type field, one codeword byte less its hardwired bits,
or nothing. -/
theorem writeReg_cases (a v : Byte) (s : State) :
    (∃ k : Fin 11, portOf a = .msg k ∧
      writeReg a v s = { s with msg := s.msg.set k v, msgWritten := s.msgWritten.set k true }) ∨
    (portOf a = .typeField ∧ writeReg a v s = { s with typeField := v.extractLsb' 0 3, typeWritten := true }) ∨
    (∃ k : Fin 22, portOf a = .cw k ∧
      writeReg a v s = { s with cw := s.cw.set k (v &&& cwMask k), cwWritten := s.cwWritten.set k true }) ∨
    ((∀ k, portOf a ≠ .msg k) ∧ portOf a ≠ .typeField ∧ (∀ k, portOf a ≠ .cw k) ∧ writeReg a v s = s) := by
  unfold writeReg
  cases hp : portOf a <;> simp

/-! ### What no register write touches (R34, R37) -/

@[simp] theorem writeReg_rem (a v : Byte) (s : State) : (writeReg a v s).rem = s.rem := by
  unfold writeReg
  split <;> rfl

@[simp] theorem writeReg_tone (a v : Byte) (s : State) : (writeReg a v s).tone = s.tone := by
  unfold writeReg
  split <;> rfl

@[simp] theorem writeReg_busy (a v : Byte) (s : State) : (writeReg a v s).busy = s.busy := by
  unfold writeReg
  split <;> rfl

@[simp] theorem writeReg_err (a v : Byte) (s : State) : (writeReg a v s).err = s.err := by
  unfold writeReg
  split <;> rfl

@[simp] theorem writeReg_errCode (a v : Byte) (s : State) : (writeReg a v s).errCode = s.errCode := by
  unfold writeReg
  split <;> rfl

@[simp] theorem writeReg_cmdLatch (a v : Byte) (s : State) : (writeReg a v s).cmdLatch = s.cmdLatch := by
  unfold writeReg
  split <;> rfl

@[simp] theorem writeReg_script (a v : Byte) (s : State) : (writeReg a v s).script = s.script := by
  unfold writeReg
  split <;> rfl

@[simp] theorem writeReg_results (a v : Byte) (s : State) : (writeReg a v s).results = s.results := by
  unfold writeReg
  split <;> rfl

@[simp] theorem writeReg_remaining (a v : Byte) (s : State) : (writeReg a v s).remaining = s.remaining := by
  unfold writeReg
  split <;> rfl

@[simp] theorem writeReg_draws (a v : Byte) (s : State) : (writeReg a v s).draws = s.draws := by
  unfold writeReg
  split <;> rfl

/-- What a register reads as is a function of the block's registers alone (R36). -/
theorem readReg_congr {s t : State} (hmsg : s.msg = t.msg) (hty : s.typeField = t.typeField) (hrem : s.rem = t.rem)
    (hcw : s.cw = t.cw) (htone : s.tone = t.tone) (hst : statusByte s = statusByte t) (a : Byte) : readReg s a = readReg t a := by
  unfold readReg
  rw [hmsg, hty, hrem, hcw, htone, hst]

/-- The hardwired bits stay 0 under any write of a codeword byte (R14). -/
theorem getBit_set_cwMask_pad {cw : Buffer 22} {q : Nat} (hq : 174 ≤ q ∧ q < 176) (k : Fin 22) (v : Byte)
    (h : getBit cw q = false) : getBit (cw.set k (v &&& cwMask k)) q = false := by
  rw [getBit_set]
  split
  · have hk : k.val = 21 := by omega
    have hb : 7 - q % 8 = 0 ∨ 7 - q % 8 = 1 := by omega
    rw [BitVec.getLsbD_and, hk]
    rcases hb with hb | hb <;> rw [hb] <;> simp [cwMask]
  · exact h

end Sys2Proof.Machine
end

