-- ==== Sys2Proof/Laws/ReadSet.lean ====
section
/-! SUPPORT. When a command's read set counts as written (70_reset_and_hazards.md R112), register by register. -/

namespace Sys2Proof.Machine

/-- The record of what was written since reset decides, and nothing else. -/
theorem readSetWritten_congr {s t : State} (hm : s.msgWritten = t.msgWritten) (ht : s.typeWritten = t.typeWritten)
    (hc : s.cwWritten = t.cwWritten) (i : Instr) : readSetWritten i s = readSetWritten i t := by
  cases i <;> simp only [readSetWritten, hm, ht, hc]

theorem leadingWritten_iff {len : Nat} (record : Vector Bool len) {count : Nat} (hc : count ≤ len) :
    leadingWritten record count = true ↔ ∀ k (h : k < len), k < count → record[k] = true := by
  have hd : ∀ k, (h : k < len) → record.getD k false = record[k] := fun k h => by simp [Vector.getD, h]
  simp only [leadingWritten, List.all_eq_true, List.mem_range]
  exact ⟨fun h k hk hkc => hd k hk ▸ h k hkc, fun h k hkc => (hd k (by omega)).trans (h k (by omega) hkc)⟩

theorem readSetWritten_crc {n : Nat} (hn : n ≤ 88) (s : State) :
    readSetWritten (.crc n) s = true ↔ ∀ k (h : k < 11), k < (n + 7) / 8 → s.msgWritten[k] = true :=
  leadingWritten_iff _ (by omega)

theorem readSetWritten_ldpc (s : State) : readSetWritten .ldpc s = true ↔ ∀ k (h : k < 11), s.msgWritten[k] = true :=
  (leadingWritten_iff _ (le_refl 11)).trans (forall₂_congr fun _ h => by simp [h])

theorem readSetWritten_map (s : State) : readSetWritten .map s = true ↔ ∀ k (h : k < 22), s.cwWritten[k] = true :=
  (leadingWritten_iff _ (le_refl 22)).trans (forall₂_congr fun _ h => by simp [h])

theorem readSetWritten_encode (s : State) :
    readSetWritten .encode s = true ↔ (∀ k (h : k < 9), s.msgWritten[k] = true) ∧ s.typeWritten = true := by
  rw [readSetWritten, Bool.and_eq_true, leadingWritten_iff _ (by decide)]
  exact and_congr_left' ⟨fun h k hk => h k (by omega) hk, fun h k _ hk => h k hk⟩

/-- An unspecified codeword has its pad bits 0 as well: they are hardwired (R14). -/
theorem getBit_freeCodeword_pad (d : Nat) {q : Nat} (h : 174 ≤ q) : getBit (freeCodeword d) q = false := by
  unfold getBit
  by_cases hq : q < 176
  · have hk : q / 8 = 21 := by omega
    have hb : 7 - q % 8 = 0 ∨ 7 - q % 8 = 1 := by omega
    rw [hk]
    rcases hb with hb | hb <;> rw [hb] <;> simp [freeCodeword, Vector.getD, cwMask]
  · have hk : ¬ q / 8 < 22 := by omega
    simp [Vector.getD, hk]

end Sys2Proof.Machine
end

