-- ==== Sys2Proof/Laws/Step.lean ====
section
/-! SUPPORT. What a command and a step can do, said once (30_encoding.md R48), and the induction over a run. -/

namespace Sys2Proof.Machine

/-- Everything a command can do at its completion: its rule's register writes on a written read set (R63, R75, R87, R88), the error
record for a count no run latches, an unspecified result on an unwritten read set (R112). -/
theorem exec_cases {i : Instr} {s t : State} (h : exec i s = .next t) :
    (∃ n, i = .crc n ∧ n ≤ 88 ∧ readSetWritten i s = true ∧ t = complete { s with rem := crc12 (leadingBits s.msg n) }) ∨
    (∃ n, i = .crc n ∧ 88 < n ∧ t = complete (raiseErr .crcLen s)) ∨
    (i = .ldpc ∧ readSetWritten i s = true ∧
      t = complete { s with cw := codewordOf s.msg, cwWritten := Vector.replicate 22 true }) ∨
    (i = .map ∧ readSetWritten i s = true ∧ t = complete { s with tone := tonemap s.cw }) ∨
    (i = .encode ∧ readSetWritten i s = true ∧ t = complete (markEncoded { s with
      msg := packedFrame s, rem := frameChecksum s, cw := codewordOf (packedFrame s),
      tone := tonemap (codewordOf (packedFrame s)) })) ∨
    (accepted i = true ∧ readSetWritten i s = false ∧ t = complete (unspecifiedResult i s)) := by
  cases i with
  | crc n =>
    rw [exec] at h
    by_cases hn : n ≤ 88
    · cases hw : readSetWritten (.crc n) s with
      | true =>
        rw [execCrc_of_written hn hw] at h
        exact .inl ⟨n, rfl, hn, rfl, (Host.Outcome.next.inj h).symm⟩
      | false =>
        rw [execCrc_of_unwritten hn hw] at h
        exact .inr (.inr (.inr (.inr (.inr ⟨by simp [accepted, hn], rfl, (Host.Outcome.next.inj h).symm⟩))))
    · rw [execCrc_of_gt (by omega)] at h
      exact .inr (.inl ⟨n, rfl, by omega, (Host.Outcome.next.inj h).symm⟩)
  | ldpc =>
    rw [exec] at h
    cases hw : readSetWritten .ldpc s with
    | true =>
      rw [execLdpc_of_written hw] at h
      exact .inr (.inr (.inl ⟨rfl, rfl, (Host.Outcome.next.inj h).symm⟩))
    | false =>
      rw [execLdpc_of_unwritten hw] at h
      exact .inr (.inr (.inr (.inr (.inr ⟨rfl, rfl, (Host.Outcome.next.inj h).symm⟩))))
  | map =>
    rw [exec] at h
    cases hw : readSetWritten .map s with
    | true =>
      rw [execMap_of_written hw] at h
      exact .inr (.inr (.inr (.inl ⟨rfl, rfl, (Host.Outcome.next.inj h).symm⟩)))
    | false =>
      rw [execMap_of_unwritten hw] at h
      exact .inr (.inr (.inr (.inr (.inr ⟨rfl, rfl, (Host.Outcome.next.inj h).symm⟩))))
  | encode =>
    rw [exec] at h
    cases hw : readSetWritten .encode s with
    | true =>
      rw [execEncode_of_written hw] at h
      exact .inr (.inr (.inr (.inr (.inl ⟨rfl, rfl, (Host.Outcome.next.inj h).symm⟩))))
    | false =>
      rw [execEncode_of_unwritten hw] at h
      exact .inr (.inr (.inr (.inr (.inr ⟨rfl, rfl, (Host.Outcome.next.inj h).symm⟩))))

/-- What no command touches: the type, the latch and the host's side. -/
theorem exec_control {i : Instr} {s t : State} (h : exec i s = .next t) :
    t.busy = false ∧ t.remaining = 0 ∧ t.typeField = s.typeField ∧ t.typeWritten = s.typeWritten ∧
      t.cmdLatch = s.cmdLatch ∧ t.script = s.script ∧ t.results = s.results := by
  rcases exec_cases h with ⟨n, -, -, -, rfl⟩ | ⟨n, -, -, rfl⟩ | ⟨-, -, rfl⟩ | ⟨-, -, rfl⟩ | ⟨-, -, rfl⟩ | ⟨-, -, rfl⟩ <;> simp

/-- A command sees the registers, the record of what is written and, on an unwritten read set, the draw; nothing else (R23, R112). -/
theorem exec_sameRegisters {i : Instr} {s t u v : State} (h : SameRegisters s t)
    (hd : readSetWritten i s = true ∨ s.draws = t.draws) (hu : exec i s = .next u) (hv : exec i t = .next v) :
    SameRegisters u v := by
  obtain ⟨h1, h2, h3, h4, h5, ⟨h6, h7, h8⟩, h9, h10⟩ := h
  have hw : readSetWritten i s = readSetWritten i t := readSetWritten_congr h6 h7 h8 i
  have hf : packedFrame s = packedFrame t ∧ frameChecksum s = frameChecksum t := by
    simp only [packedFrame, frameChecksum, frameOf, h1, h2, and_self]
  cases hs : readSetWritten i s with
  | true =>
    rw [hs] at hw
    rcases exec_cases hu with ⟨n, rfl, hn, -, rfl⟩ | ⟨n, rfl, hn, rfl⟩ | ⟨rfl, -, rfl⟩ | ⟨rfl, -, rfl⟩ | ⟨rfl, -, rfl⟩ |
        ⟨-, hf, -⟩
    · rw [exec, execCrc_of_written hn hw.symm] at hv
      cases hv
      simp [SameRegisters, *]
    · rw [exec, execCrc_of_gt hn] at hv
      cases hv
      simp [SameRegisters, *]
    · rw [exec, execLdpc_of_written hw.symm] at hv
      cases hv
      simp [SameRegisters, *]
    · rw [exec, execMap_of_written hw.symm] at hv
      cases hv
      simp [SameRegisters, *]
    · rw [exec, execEncode_of_written hw.symm] at hv
      cases hv
      simp [SameRegisters, *]
    · rw [hs] at hf
      cases hf
  | false =>
    have hd : s.draws = t.draws := hd.resolve_left (by simp [hs])
    rw [hs] at hw
    rcases exec_cases hu with ⟨_, _, _, hx, _⟩ | ⟨n, rfl, hn, rfl⟩ | ⟨_, hx, _⟩ | ⟨_, hx, _⟩ | ⟨_, hx, _⟩ | ⟨ha, -, rfl⟩
    · simp [hs] at hx
    · rw [exec, execCrc_of_gt hn] at hv
      cases hv
      simp [SameRegisters, *]
    · simp [hs] at hx
    · simp [hs] at hx
    · simp [hs] at hx
    · rcases exec_cases hv with ⟨_, _, _, hx, _⟩ | ⟨n, rfl, hn, rfl⟩ | ⟨_, hx, _⟩ | ⟨_, hx, _⟩ | ⟨_, hx, _⟩ | ⟨-, -, rfl⟩
      · simp [← hw] at hx
      · simp only [accepted, Config.crcMax, decide_eq_true_eq] at ha
        omega
      · simp [← hw] at hx
      · simp [← hw] at hx
      · simp [← hw] at hx
      · cases i <;> simp [SameRegisters, unspecifiedResult, *]

theorem step_of_blockMoves {s : State} (h : blockMoves s = true) : step s = blockStep s := by
  simp [step, h]

theorem step_of_not_blockMoves {s : State} (h : blockMoves s = false) : step s = .next (hostMove s) := by
  simp [step, h]

/-- An idle block has no step of its own (R48). -/
theorem blockMoves_of_idle {s : State} (h : s.busy = false) : blockMoves s = false := by
  simp [blockMoves, h]

theorem blockMoves_of_busy {s : State} (h : s.busy = true) : blockMoves s = true ↔ s.remaining = 0 ∨ s.script = [] := by
  simp [blockMoves, h, List.isEmpty_iff]

theorem hostMove_nil {s : State} (h : s.script = []) : hostMove s = s := by
  simp [hostMove, h]

theorem hostMove_cons {s : State} {a : HostAction} {rest : List HostAction} (h : s.script = a :: rest) :
    hostMove s = perform a (afterAction s rest) := by
  simp [hostMove, h]

/-- Everything a step that answers a next state can be: the completion of the latched command, a host with nothing to do, or one
host action. -/
theorem step_cases {s t : State} (h : step s = .next t) :
    (blockMoves s = true ∧ s.busy = true ∧ ∃ i, decode s.cmdLatch = .ok i ∧ exec i s = .next t) ∨
    (blockMoves s = false ∧ s.script = [] ∧ s.busy = false ∧ t = s) ∨
    (blockMoves s = false ∧ ∃ a rest, s.script = a :: rest ∧
      t = perform a (afterAction s rest)) := by
  cases hb : blockMoves s with
  | true =>
    rw [step_of_blockMoves hb] at h
    have hbusy : s.busy = true := by
      unfold blockMoves at hb
      cases hs : s.busy <;> simp_all
    unfold blockStep at h
    cases hd : decode s.cmdLatch with
    | error r => rw [hd] at h; cases h
    | ok i => rw [hd] at h; exact .inl ⟨rfl, hbusy, i, rfl, h⟩
  | false =>
    rw [step_of_not_blockMoves hb] at h
    have ht := (Host.Outcome.next.inj h).symm
    cases hs : s.script with
    | nil =>
      have hbusy : s.busy = false := by
        cases hb' : s.busy with
        | false => rfl
        | true => simp [blockMoves, hb', hs] at hb
      rw [hostMove_nil hs] at ht
      exact .inr (.inl ⟨rfl, rfl, hbusy, ht⟩)
    | cons a rest =>
      rw [hostMove_cons hs] at ht
      exact .inr (.inr ⟨rfl, a, rest, rfl, ht⟩)

/-- What issue can do (R48): one error record, or the acceptance of a command of the opcode map. -/
theorem issue_cases (w : Word) (s : State) :
    (s.busy = true ∧ issue w s = raiseErr .busyViolation s) ∨
    (s.busy = false ∧ (∃ r, decode w = .error r) ∧ issue w s = raiseErr .illegalCmd s) ∨
    (s.busy = false ∧ (∃ i, decode w = .ok i ∧ accepted i = false) ∧ issue w s = raiseErr .crcLen s) ∨
    (s.busy = false ∧ ∃ i, decode w = .ok i ∧ accepted i = true ∧ issue w s = accept w i s) := by
  unfold issue
  cases hb : s.busy with
  | true => exact .inl ⟨rfl, by simp⟩
  | false =>
    cases hd : decode w with
    | error r => exact .inr (.inl ⟨rfl, ⟨r, rfl⟩, by simp⟩)
    | ok i =>
      cases ha : accepted i with
      | false => exact .inr (.inr (.inl ⟨rfl, ⟨i, rfl, ha⟩, by simp [ha]⟩))
      | true => exact .inr (.inr (.inr ⟨rfl, i, rfl, ha, by simp [ha]⟩))

/-- One step more of a run. -/
theorem run_succ (n : Nat) (s : State) :
    core.run (n + 1) s =
      match step s with
      | .next t => core.run n t
      | .fault r => .fault r
      | .refused r => .refused r := by
  have hc : ∀ o, step s = o → core.step s = o := fun _ h => h
  cases h : step s <;> simp [Host.Core.run, hc _ h]

theorem run_zero (s : State) : core.run 0 s = .next s := rfl

/-- A run of one step. -/
theorem run_one {s t : State} (h : step s = .next t) : core.run 1 s = Host.Outcome.next t := by
  rw [show 1 = 0 + 1 by rfl, run_succ, h]
  rfl

/-- Two runs one after the other. -/
theorem run_add {m : Nat} {s t : State} (n : Nat) (h : core.run m s = Host.Outcome.next t) :
    core.run (m + n) s = core.run n t := by
  induction m generalizing s with
  | zero =>
    rw [run_zero] at h
    cases h
    simp
  | succ m ih =>
    rw [run_succ] at h
    rw [show m + 1 + n = (m + n) + 1 by omega, run_succ]
    cases hs : step s with
    | next u => rw [hs] at h; exact ih h
    | fault r => rw [hs] at h; cases h
    | refused r => rw [hs] at h; cases h

/-- What holds at the start of a run and is kept by every step holds at its end. -/
theorem run_induction {P : State → Prop} (hstep : ∀ s t, P s → step s = .next t → P t) :
    ∀ (n : Nat) (s t : State), P s → core.run n s = .next t → P t := by
  intro n
  induction n with
  | zero =>
    intro s t hs h
    rw [run_zero] at h
    exact Host.Outcome.next.inj h ▸ hs
  | succ n ih =>
    intro s t hs h
    rw [run_succ] at h
    cases hst : step s with
    | next u => rw [hst] at h; exact ih u t (hstep s u hs hst) h
    | fault r => rw [hst] at h; cases h
    | refused r => rw [hst] at h; cases h

end Sys2Proof.Machine
end

