-- ==== Sys2Proof/Tests/Slice0.lean ====
section
/-! SUPPORT. The model's own tests: words written out from the opcode map, one-step tests whose results are vectors of
spec/95_test_vectors.md (V, S, P), and, for every obligation with hypotheses, a state and operands that meet them. -/

open Sys2Proof Sys2Proof.Machine

namespace Sys2Proof.Tests

/-! ### Helpers -/

/-- An idle block with every register written to 0 and nothing to do: a start for small tests, not the reset state. -/
def blank : State where
  msg := zeroBuffer 11
  typeField := 0#3
  rem := 0#12
  cw := zeroBuffer 22
  tone := Vector.replicate 79 0#3
  busy := false
  err := false
  errCode := .none
  cmdLatch := 0#16
  msgWritten := Vector.replicate 11 true
  typeWritten := true
  cwWritten := Vector.replicate 22 true
  script := []
  results := []
  remaining := 0
  draws := 0

/-- `blank` with a host script. -/
def idle (script : List HostAction) : State := { blank with script := script }

/-- A block that runs the command word `w`, with `r` host actions to fall before it completes. -/
def running (w : Word) (r : Nat) (script : List HostAction) : State :=
  { blank with cmdLatch := w, busy := true, remaining := r, script := script }

/-- One thing seen of an outcome. -/
def seen {α : Type} (f : State → α) : Outcome → Option α
  | .next t => some (f t)
  | .fault _ => none
  | .refused _ => none

/-- The input of the vectors V30 to V36. -/
def ldpcInput : Buffer 11 :=
  #v[0x11#8, 0x22#8, 0x33#8, 0x44#8, 0x55#8, 0x66#8, 0x77#8, 0x88#8, 0x99#8, 0xB4#8, 0x24#8]

/-! ### Well-formedness (R46, R51) -/

theorem test_wellFormed_refuses_256 : (Instr.crc 256).wellFormed = false := by decide
theorem test_wellFormed_accepts_255 : (Instr.crc 255).wellFormed = true := by decide +kernel
theorem test_assembler_refuses_256 : assemble [.command (.crc 256)] = none := by decide

/-! ### Decode and encode: words bit by bit from the encoding column of R47 -/

theorem test_decode_crc : decode 0b0001000001001100#16 = .ok (.crc 76) := by decide
theorem test_decode_crc_89 : decode 0b0001000001011001#16 = .ok (.crc 89) := by decide
theorem test_decode_ldpc : decode 0b0010000000000000#16 = .ok .ldpc := by decide
theorem test_decode_map : decode 0b0011000000000000#16 = .ok .map := by decide
theorem test_decode_encode : decode 0b0100000000000000#16 = .ok .encode := by decide
/-- R49: the all-zero word. -/
theorem test_decode_rejects_zero : decode 0x0000#16 = .error .opUndefined := by decide
/-- V65. -/
theorem test_decode_rejects_op5 : decode 0x5000#16 = .error .opUndefined := by decide
/-- V64. -/
theorem test_decode_rejects_zero_field : decode 0x1100#16 = .error .zeroFieldSet := by decide
/-- V63. -/
theorem test_decode_rejects_operand : decode 0x2001#16 = .error .operandSet := by decide
theorem test_encode_crc : encode (.crc 88) = 0x1058#16 := by decide
theorem test_encode_encode : encode .encode = 0b0100000000000000#16 := by decide
theorem test_decodeTableWord : decodeTableWord 16 0x3000 = some .map := by decide

/-! ### The four commands -/

/-- V9: only the first four bits of FF are read. -/
theorem test_crc_reads_n_bits :
    seen State.rem (exec (.crc 4) { blank with msg := blank.msg.set 0 0xFF#8 }) = some 0xC36#12 := by decide
/-- V12: crosses a byte boundary. -/
theorem test_crc_crosses_bytes :
    seen State.rem (exec (.crc 16) { blank with msg := (blank.msg.set 0 0xA5#8).set 1 0x5A#8 }) = some 0x366#12 := by decide +kernel
/-- V32, T_ROT: the direction of the permutation. -/
theorem test_ldpc_permutation_direction :
    ldpc174 (fun i => BitVec.ofFnBE fun j => decide (j = i)) (fun p => p + 1) (infoWord ldpcInput) =
      #v[0x08#8, 0x91#8, 0x19#8, 0xA2#8, 0x2A#8, 0xB3#8, 0x3B#8, 0xC4#8, 0x4C#8, 0xDA#8, 0x12#8, 0x11#8, 0x22#8, 0x33#8,
        0x44#8, 0x55#8, 0x66#8, 0x77#8, 0x88#8, 0x99#8, 0xB4#8, 0x24#8] := by
  decide +kernel
/-- V36, T_SH: rows against columns of the generator table. -/
theorem test_ldpc_row_and_column :
    ldpc174 (fun i => BitVec.ofFnBE fun j => decide (j.val = (i.val + 1) % 87)) id (infoWord ldpcInput) =
      #v[0x22#8, 0x44#8, 0x66#8, 0x88#8, 0xAA#8, 0xCC#8, 0xEF#8, 0x11#8, 0x33#8, 0x68#8, 0x48#8, 0x22#8, 0x44#8, 0x66#8,
        0x88#8, 0xAA#8, 0xCC#8, 0xEF#8, 0x11#8, 0x33#8, 0x68#8, 0x48#8] := by
  decide +kernel
/-- V41: eight symbols across byte boundaries. -/
theorem test_map_symbols :
    seen (fun t => (t.tone.toList.drop 7).take 9)
      (exec .map { blank with cw := ((blank.cw.set 0 0x05#8).set 1 0x39#8).set 2 0x77#8 }) =
      some [0, 1, 2, 3, 4, 5, 6, 7, 0] := by
  decide
/-- V45: codeword bit 87 opens the second data block. -/
theorem test_map_second_block :
    seen (fun t => (t.tone.toList.drop 35).take 9) (exec .map { blank with cw := blank.cw.set 10 0x01#8 }) =
      some [0, 2, 5, 6, 0, 4, 1, 3, 4] := by
  decide
/-- V21: checksum and packing. -/
theorem test_encode_packing :
    seen (fun t => (t.rem, t.msg[9], t.msg[10])) (exec .encode { blank with msg := ldpcInput, typeField := 5#3 }) =
      some (0xA12#12, 0xB4#8, 0x24#8) := by
  decide +kernel
/-- V25: the checksum alone in bytes 9 and 10. -/
theorem test_encode_packing_type_zero :
    seen (fun t => (t.rem, t.msg[9], t.msg[10])) (exec .encode { blank with msg := blank.msg.set 0 0x80#8 }) =
      some (0xBFC#12, 0x17#8, 0xF8#8) := by
  decide +kernel

/-! ### Read sets (R112) -/

/-- R112: `CRC 0` needs nothing, `CRC 9` needs two bytes. -/
theorem test_crc_read_set :
    readSetWritten (.crc 0) State.reset = true ∧
      readSetWritten (.crc 8) (writeReg 0x00#8 0x80#8 State.reset) = true ∧
      readSetWritten (.crc 9) (writeReg 0x00#8 0x80#8 State.reset) = false := by
  decide
/-- R112: one unwritten byte of `MSG` and `CW` is unspecified, and counts as written. -/
theorem test_ldpc_unwritten_draws :
    ∃ t : State, exec .ldpc { blank with msgWritten := blank.msgWritten.set 10 false } = .next t ∧ t.cw = freeCodeword 0 ∧
      t.draws = 1 ∧ t.cwWritten = Vector.replicate 22 true :=
  ⟨_, execLdpc_of_unwritten (by decide), rfl, rfl, rfl⟩

/-! ### Host actions and errors -/

/-- V61. -/
theorem test_illegal_word_status :
    seen (fun t => (statusByte t, t.busy)) (step (idle [.cmd 0x0000#16])) = some (0x06#8, false) := by decide
/-- V62. -/
theorem test_overlong_crc_status :
    seen (fun t => (statusByte t, t.rem)) (step (idle [.cmd 0x1059#16])) = some (0x0A#8, 0#12) := by decide
/-- V70: the write is dropped and recorded, the command goes on. -/
theorem test_busy_write_status :
    seen (fun t => (statusByte t, t.msg[0], t.cmdLatch)) (step (running 0x4000#16 1 [.wr 0x00#8 0x01#8])) =
      some (0x0F#8, 0x00#8, 0x4000#16) := by
  decide
/-- V68: `TYPE` keeps bits 2:0. -/
theorem test_type_write : readReg (writeReg 0x0B#8 0xFD#8 blank) 0x0B#8 = 0x05#8 := by decide
/-- V48: the hardwired bits of `CW[21]`. -/
theorem test_codeword_pad_write : readReg (writeReg 0x25#8 0xFF#8 blank) 0x25#8 = 0xFC#8 := by decide
/-- R48, R63 with V5: the step of a busy block is the command in its latch. -/
theorem test_fetched_command_runs :
    seen (fun t => (t.rem, t.busy)) (step (({ blank with msg := blank.msg.set 0 0x80#8 }).withFetchWord 16 0x1008)) =
      some (0x6DA#12, false) := by
  decide
/-- R52: the text of a script, comment and number forms included. -/
theorem test_assembler_text :
    assembleText ["WR 0x09, 0x20 ; type 1 << 5".toList, "CRC 76".toList, "".toList, "RDREM".toList] =
      some [.wr 0x09#8 0x20#8, .cmd 0x104C#16, .rd 0x0E#8, .rd 0x0F#8] := by
  decide

/-! ### Witnesses: each meets the hypotheses of the obligation it is named after -/

theorem witness_DecodeEncodeRoundTrip :
    (Instr.crc 0).wellFormed = true ∧ (Instr.crc 255).wellFormed = true ∧ decode 0x10FF#16 = .ok (.crc 255) := by
  decide

theorem witness_DecodeFollowsOpcodeMap :
    decode 0x1000#16 = .ok (.crc 0) ∧ decode 0x2000#16 = .ok .ldpc ∧ decode 0x3000#16 = .ok .map ∧
      decode 0x4000#16 = .ok .encode ∧ decode 0x1100#16 = .error .zeroFieldSet := by
  decide

theorem witness_IllegalWordRecordsIllegalCmd :
    (IllegalFields 0x0FFF#16 ∧ IllegalFields 0x5000#16 ∧ IllegalFields 0x1100#16 ∧ IllegalFields 0x4001#16) ∧
      (idle [.cmd 0x5000#16]).busy = false ∧ (idle [.cmd 0x5000#16]).script = [.cmd 0x5000#16] := by
  unfold IllegalFields
  decide

theorem witness_OverlongCrcIsRefusedAtIssue :
    (idle [.cmd (0x1000#16 + BitVec.ofNat 16 89)]).busy = false ∧
      (idle [.cmd (0x1000#16 + BitVec.ofNat 16 89)]).script = [.cmd 0x1059#16] ∧ 89 ≤ 89 ∧ 255 ≤ 255 := by
  decide

theorem witness_AcceptedCommandIsLatched :
    (idle [.cmd 0x1058#16]).busy = false ∧ (idle [.cmd 0x1058#16]).script = [.cmd 0x1058#16] ∧
      decode 0x1058#16 = .ok (.crc 88) ∧ ∀ n, Instr.crc 88 = .crc n → n ≤ 88 :=
  ⟨rfl, rfl, rfl, fun _ h => by cases h; decide⟩

theorem witness_BusyCommandOrWriteIsDropped :
    (running 0x2000#16 1 []).busy = true ∧ (running 0x2000#16 1 []).remaining ≠ 0 ∧
      (running 0x2000#16 1 [.cmd 0x0000#16]).script = [.cmd 0x0000#16] ∧
      (running 0x2000#16 1 [.wr 0xFF#8 0x01#8]).script = [.wr 0xFF#8 0x01#8] ∧
      (running 0x2000#16 1 [.rd 0x30#8]).script = [.rd 0x30#8] := by
  decide

theorem witness_BusyReadOfStatusIsTrue :
    (running 0x2000#16 1 [.rd 0x0C#8]).busy = true ∧ (running 0x2000#16 1 [.rd 0x0C#8]).remaining ≠ 0 ∧
      (running 0x2000#16 1 [.rd 0x0C#8]).script = [.rd 0x0C#8] ∧
      (running 0x2000#16 1 [.rd 0x0D#8]).script = [.rd 0x0D#8] ∧ 0x0D#8 ≠ 0x0C#8 := by
  decide

theorem witness_BusyAccessLeavesCommandAlone :
    readSetWritten .map (running 0x3000#16 1 [.wr 0x10#8 0xFF#8]) = true ∧
    ∃ t u v : State, step (running 0x3000#16 1 [.wr 0x10#8 0xFF#8]) = .next t ∧
      (running 0x3000#16 1 [.wr 0x10#8 0xFF#8]).remaining ≠ 0 ∧ HostAction.wr 0x10#8 0xFF#8 ≠ .reset ∧
      exec .map (running 0x3000#16 1 [.wr 0x10#8 0xFF#8]) = .next u ∧ exec .map t = .next v :=
  ⟨by decide, _, _, _, rfl, by decide, by decide, rfl, rfl⟩

theorem witness_ErrorRecordIsStickyAndFirst :
    (LatchHoldsCommand (idle [.cmd 0x0000#16]) ∧ seen State.err (step (idle [.cmd 0x0000#16])) = some true) ∧
      (∃ t : State, step { idle [.cmd 0x1059#16] with err := true, errCode := .illegalCmd } = .next t) ∧
      ∃ t : State, step { idle [.reset] with err := true, errCode := .illegalCmd } = .next t :=
  ⟨⟨fun h => (by cases h), rfl⟩, ⟨_, rfl⟩, ⟨_, rfl⟩⟩

theorem witness_ErrorsHaveListedCauses :
    (LatchHoldsCommand (idle [.cmd 0x0000#16]) ∧ (idle [.cmd 0x0000#16]).err = false ∧
        seen State.errCode (step (idle [.cmd 0x0000#16])) = some .illegalCmd) ∧
      (LatchHoldsCommand (idle [.cmd 0x1059#16]) ∧ (idle [.cmd 0x1059#16]).errCode = .none ∧
        seen State.errCode (step (idle [.cmd 0x1059#16])) = some .crcLen) ∧
      LatchHoldsCommand (running 0x3000#16 1 [.wr 0x00#8 0x00#8]) ∧
      seen State.errCode (step (running 0x3000#16 1 [.wr 0x00#8 0x00#8])) = some .busyViolation :=
  ⟨⟨fun h => (by cases h), rfl, rfl⟩, ⟨fun h => (by cases h), rfl, rfl⟩, fun _ => ⟨.map, rfl, rfl⟩, rfl⟩

theorem witness_StepRunsLatchedCommand :
    ((running 0x4000#16 0 [.reset]).busy = true ∧ (running 0x4000#16 0 [.reset]).remaining = 0 ∧
        decode (running 0x4000#16 0 [.reset]).cmdLatch = .ok .encode) ∧
      (running 0x1000#16 7 []).busy = true ∧ (running 0x1000#16 7 []).script = [] ∧
      decode (running 0x1000#16 7 []).cmdLatch = .ok (.crc 0) := by
  decide

theorem witness_IdleBlockStands : RunEnded blank := ⟨rfl, rfl⟩

theorem witness_WaitEndsWithCommandDone :
    LatchHoldsCommand (running 0x3000#16 5 [.wait]) ∧ (running 0x3000#16 5 [.wait]).busy = true ∧
      (running 0x3000#16 5 [.wait]).script = [.wait] :=
  ⟨fun _ => ⟨.map, rfl, rfl⟩, rfl, rfl⟩

theorem witness_CommandThenWaitActsAtOnce :
    (idle [.cmd 0x3000#16, .wait]).busy = false ∧ (idle [.cmd 0x3000#16, .wait]).script = [.cmd 0x3000#16, .wait] ∧
      decode 0x3000#16 = .ok .map ∧ readSetWritten .map (idle [.cmd 0x3000#16, .wait]) = true ∧
      ∀ n, Instr.map = .crc n → n ≤ 88 :=
  ⟨rfl, rfl, rfl, by decide, fun _ h => by cases h⟩

theorem witness_WaitingHostIsNeverRefusedAsBusy :
    (HostWaits (idle [.cmd 0x3000#16, .wait]) ∧ ∃ t : State, step (idle [.cmd 0x3000#16, .wait]) = .next t) ∧
      (HostWaits (running 0x3000#16 1 [.reset]) ∧ ∃ t : State, step (running 0x3000#16 1 [.reset]) = .next t) ∧
      HostWaits (running 0x3000#16 1 [.wait, .cmd 0x3000#16, .reset]) :=
  ⟨⟨.inl ⟨rfl, rfl⟩, _, rfl⟩, ⟨.inr ⟨rfl, [], .inr rfl, rfl⟩, _, rfl⟩, .inr ⟨rfl, _, .inl rfl, rfl⟩⟩

/-- V10: F0 is a byte whose bits beyond the fourth are 0. -/
theorem witness_ByteLoadingFormAgreesOnZeroTail :
    4 ≤ 8 * 1 ∧ ∀ i, 4 ≤ i → i < 8 * ((4 + 7) / 8) → getBit (#v[0xF0#8] : Buffer 1) i = false := by
  refine ⟨by decide, fun i h1 h2 => ?_⟩
  have h : i = 4 ∨ i = 5 ∨ i = 6 ∨ i = 7 := by omega
  rcases h with rfl | rfl | rfl | rfl <;> decide

theorem witness_ChecksumConsequences : ([true, false] : List Bool).length = [false, true].length := by decide

theorem witness_CrcWritesRemOnly :
    (0 ≤ 88 ∧ readSetWritten (.crc 0) State.reset = true) ∧ 88 ≤ 88 ∧ readSetWritten (.crc 88) blank = true := by
  decide

theorem witness_LdpcWritesCodewordOnly : readSetWritten .ldpc blank = true := by decide

theorem witness_MapWritesTonesOnly : readSetWritten .map blank = true := by decide

/-- Bytes 9 and 10 of `MSG` and the codeword need not be written for `ENCODE`. -/
theorem witness_EncodeWritesFrame :
    readSetWritten .encode { blank with
      msgWritten := (blank.msgWritten.set 9 false).set 10 false, cwWritten := Vector.replicate 22 false } = true := by
  decide

theorem witness_OverlongCrcNeverWritesRem : 89 ≤ 89 := by decide

theorem witness_LdpcConsequences :
    0 < 174 ∧ 173 < 174 ∧ ldpc174 (fun _ => 0#87) id 0#87 = ldpc174 (fun _ => 0#87) id 0#87 := by
  exact ⟨by decide, by decide, rfl⟩

theorem witness_LdpcIgnoresPadBit :
    readSetWritten .ldpc blank = true ∧ readSetWritten .ldpc { blank with msg := blank.msg.set 10 0x01#8 } = true ∧
      (∀ i, i < 87 → getBit blank.msg i = getBit (blank.msg.set 10 0x01#8) i) ∧
      (∃ t : State, exec .ldpc blank = .next t) ∧
      ∃ t : State, exec .ldpc { blank with msg := blank.msg.set 10 0x01#8 } = .next t := by
  refine ⟨by decide, by decide, fun i hi => ?_, ⟨_, rfl⟩, ⟨_, rfl⟩⟩
  rw [getBit_set]
  split
  · have h : i = 80 ∨ i = 81 ∨ i = 82 ∨ i = 83 ∨ i = 84 ∨ i = 85 ∨ i = 86 := by omega
    rcases h with rfl | rfl | rfl | rfl | rfl | rfl | rfl <;> decide
  · rfl

theorem witness_EncodePacksMessageBuffer : readSetWritten .encode blank = true ∧ 71 < 72 ∧ 2 < 3 ∧ 11 < 12 := by decide

theorem witness_EncodeEqualsHostSequence :
    blank.busy = false ∧ readSetWritten .encode blank = true ∧ 0#12 = crc12 (frameBits blank.msg blank.typeField) := by
  decide +kernel

theorem witness_EncodeInputBitChangesItsTone :
    frameInputBit blank 0 ≠ frameInputBit { blank with msg := blank.msg.set 0 0x80#8 } 0 ∧
      frameInputBit blank 74 ≠ frameInputBit { blank with typeField := 1#3 } 74 ∧
      (readSetWritten .encode blank = true ∧ readSetWritten .encode { blank with typeField := 1#3 } = true) ∧
      (∃ t : State, exec .encode blank = .next t ∧ t.tone = t.tone) ∧
      ∃ t : State, exec .encode { blank with typeField := 1#3 } = .next t :=
  ⟨by decide, by decide, by decide, ⟨_, rfl, rfl⟩, ⟨_, rfl⟩⟩

theorem witness_ZeroFrameAndPadBits :
    readSetWritten .encode blank = true ∧ (∀ i, i < 72 → getBit blank.msg i = false) ∧ blank.typeField = 0#3 :=
  ⟨by decide, fun i _ => getBit_zeroBuffer 11 i, rfl⟩

theorem witness_CommandsWriteOnlyTheirRegisters :
    (∀ n, Instr.crc 88 = .crc n → n ≤ 88) ∧ (∃ t : State, exec (.crc 88) blank = .next t) ∧
      (0x0D#8 ≠ 0x0C#8 ∧ 0x0D#8 ≠ 0x0E#8 ∧ 0x0D#8 ≠ 0x0F#8) ∧
      ¬ (0x10 ≤ (0x26#8).toNat ∧ (0x26#8).toNat ≤ 0x25) ∧ ¬ (0x30 ≤ (0x7F#8).toNat ∧ (0x7F#8).toNat ≤ 0x7E) :=
  ⟨fun _ h => by cases h; decide, ⟨_, rfl⟩, by decide, by decide, by decide⟩

theorem witness_ResultsDependOnReadSetOnly :
    88 ≤ 88 ∧ (∀ i, readSetWritten i { blank with rem := 0xFFF#12 } = readSetWritten i blank) ∧
      (readSetWritten (.crc 88) blank = true ∧ readSetWritten .ldpc blank = true ∧ readSetWritten .map blank = true ∧
        readSetWritten .encode blank = true) ∧
      (∀ i, i < 88 → getBit blank.msg i = getBit { blank with rem := 0xFFF#12 }.msg i) ∧
      (∀ q, q < 174 → getBit blank.cw q = getBit { blank with rem := 0xFFF#12 }.cw q) ∧
      (∃ t : State, exec (.crc 88) { blank with rem := 0xFFF#12 } = .next t) ∧
      ∃ t : State, exec .encode { blank with rem := 0xFFF#12 } = .next t :=
  ⟨by decide, fun _ => readSetWritten_congr rfl rfl rfl _, by decide, fun _ _ => rfl, fun _ _ => rfl, ⟨_, rfl⟩, ⟨_, rfl⟩⟩

/-- Each of the five registers does change in some step. `CW` starts with a pad bit set, so that no table can give it back. -/
theorem witness_DataRegistersChangeOnlyByTheirWriters :
    seen State.rem (step { running 0x1001#16 0 [] with msg := blank.msg.set 0 0x80#8 }) ≠ some 0#12 ∧
      seen State.tone (step (running 0x3000#16 0 [])) ≠ some blank.tone ∧
      (∃ t : State, step { running 0x2000#16 0 [] with cw := blank.cw.set 21 0x01#8 } = .next t ∧
        t.cw ≠ blank.cw.set 21 0x01#8) ∧
      seen State.cw (step (idle [.wr 0x25#8 0x04#8])) ≠ some blank.cw ∧
      seen State.msg (step { running 0x4000#16 0 [] with typeField := 1#3 }) ≠ some blank.msg ∧
      seen State.msg (step (idle [.wr 0x0A#8 0x01#8])) ≠ some blank.msg ∧
      seen State.typeField (step (idle [.wr 0x0B#8 0x01#8])) ≠ some 0#3 := by
  refine ⟨by decide +kernel, by decide +kernel, ⟨complete { running 0x2000#16 0 [] with cw := codewordOf (zeroBuffer 11) },
    rfl, fun h => ?_⟩, by decide +kernel, by decide +kernel, by decide +kernel, by decide⟩
  have hpad : getBit (codewordOf (zeroBuffer 11)) 175 = false := getBit_codewordOf_pad _ (by omega)
  have hset : getBit (blank.cw.set 21 0x01#8) 175 = true := by decide +kernel
  simp only [complete_cw] at h
  rw [← h, hpad] at hset
  cases hset

/-- A completion may happen while a `RESET` is next in the script. -/
theorem witness_DataRegistersChangeOnlyByTheirWriters_reset_next :
    blockMoves (running 0x3000#16 0 [.reset]) = true ∧ ∃ t : State, step (running 0x3000#16 0 [.reset]) = .next t :=
  ⟨rfl, _, rfl⟩

theorem witness_UnwrittenReadSetGivesUnspecifiedResult :
    (∀ n, Instr.crc 1 = .crc n → n ≤ 88) ∧ readSetWritten (.crc 1) State.reset = false ∧
      readSetWritten .ldpc { blank with msgWritten := blank.msgWritten.set 10 false } = false ∧
      readSetWritten .map { blank with cwWritten := blank.cwWritten.set 21 false } = false ∧
      readSetWritten .encode { blank with typeWritten := false } = false :=
  ⟨fun _ h => by cases h; decide, by decide, by decide, by decide, by decide⟩

theorem witness_WrittenRecordFollowsWrites :
    (∃ t : State, blockMoves (running 0x4000#16 1 [.reset]) = false ∧ step (running 0x4000#16 1 [.reset]) = .next t) ∧
      (∃ t : State, step { idle [.wr 0x25#8 0x00#8] with cwWritten := Vector.replicate 22 false } = .next t ∧
        t.cwWritten[21] = true ∧ t.cwWritten[20] = false) ∧
      ∃ t : State, blockMoves (running 0x4000#16 0 [.reset]) = true ∧ step (running 0x4000#16 0 [.reset]) = .next t :=
  ⟨⟨_, rfl, rfl⟩, ⟨_, rfl, rfl, rfl⟩, ⟨_, rfl, rfl⟩⟩

theorem witness_RegisterMap : 10 < 11 ∧ 21 < 22 ∧ 78 < 79 := by decide

theorem witness_ReservedAndReadOnlyWritesAreDropped :
    (0x0D#8).toNat = 0x0D ∧ (0x26 ≤ (0x26#8).toNat ∧ (0x2F#8).toNat ≤ 0x2F) ∧ 0x7F ≤ (0x7F#8).toNat ∧
      0x7F ≤ (0xFF#8).toNat ∧ (0x0C#8).toNat = 0x0C ∧ (0x0E#8).toNat = 0x0E ∧ (0x0F#8).toNat = 0x0F ∧
      (0x30 ≤ (0x30#8).toNat ∧ (0x7E#8).toNat ≤ 0x7E) ∧ getBit blank.cw 174 = false ∧ getBit blank.cw 175 = false := by
  decide

theorem witness_ReadsArePureAndWritesIdempotent : blank.busy = false := rfl

theorem witness_IdleHostActions :
    (idle [.wr 0x00#8 0x01#8]).busy = false ∧ (idle [.wr 0x00#8 0x01#8]).script = [.wr 0x00#8 0x01#8] ∧
      (idle [.rd 0x0C#8]).script = [.rd 0x0C#8] ∧ (idle [.wait]).script = [.wait] := by
  decide

theorem witness_ResetAbandonsCommand :
    ((idle [.reset]).busy = false ∧ (idle [.reset]).script = [.reset]) ∧
      (running 0x4000#16 1 [.reset]).remaining ≠ 0 ∧ (running 0x4000#16 1 [.reset]).script = [.reset] := by
  decide

theorem witness_StepKeepsInvariant :
    (running 0x1058#16 1 [.wr 0x00#8 0x01#8]).Inv ∧ (idle [.cmd 0x0000#16]).Inv :=
  ⟨⟨by unfold CodewordPadZero; decide, by unfold ErrorRecordConsistent; decide, fun _ => ⟨.crc 88, rfl, rfl⟩⟩,
    ⟨by unfold CodewordPadZero; decide, by unfold ErrorRecordConsistent; decide, fun h => by cases h⟩⟩

theorem witness_InstancesAreIndependent :
    stepAmong 1 [blank, idle [.wr 0x00#8 0x01#8]] =
        .next [blank, writeReg 0x00#8 0x01#8 (afterAction (idle [.wr 0x00#8 0x01#8]) [])] ∧
      [blank, idle [.wr 0x00#8 0x01#8]][1]? = some (idle [.wr 0x00#8 0x01#8]) ∧ stepAmong 7 [blank] = .next [blank] :=
  ⟨rfl, rfl, rfl⟩

theorem witness_PseudoInstructionsExpand : 8 < 9 ∧ 10 < 11 ∧ 21 < 22 ∧ 78 < 79 := by decide

end Sys2Proof.Tests
end

section
/-! The result of a command is a function of its read set (10_state.md R23): each unit's function takes equal values on buffers that
agree on the bits it reads, and every command applies such functions. -/

namespace Sys2Proof.Machine

/-- The codeword is a function of the first 87 stream bits of the message buffer (R75, R78). -/
theorem codewordOf_congr {a b : Buffer 11} (h : ∀ j, j < 87 → getBit a j = getBit b j) : codewordOf a = codewordOf b := by
  unfold codewordOf
  rw [infoWord_congr h]

/-- The tone sequence is a function of the 174 codeword bits (R85, R86): the symbols outside the data blocks are constants. -/
theorem tonemap_congr {a b : Buffer 22} (h : ∀ q, q < 174 → getBit a q = getBit b q) : tonemap a = tonemap b := by
  apply Vector.ext
  intro j hj
  have hdata : ∀ k, k < 58 → dataSymbol a k = dataSymbol b k := fun k hk => dataSymbol_congr hk h
  rw [tonemap_getElem, tonemap_getElem]
  split
  · rfl
  split
  · exact hdata (j - 7) (by omega)
  split
  · rfl
  split
  · exact hdata (j - 14) (by omega)
  · rfl

/-- Bytes 0 to 9 after step 1 of `ENCODE` are a function of payload and type: byte 9 is overwritten (R81). -/
theorem getBit_buildFrame_congr {a b : Buffer 11} (ty : BitVec 3) (h : ∀ j, j < 72 → getBit a j = getBit b j) {i : Nat}
    (hi : i < 80) : getBit (buildFrame ty a) i = getBit (buildFrame ty b) i := by
  rw [getBit_buildFrame, getBit_buildFrame]
  by_cases h72 : i < 72
  · rw [if_neg (by omega), if_neg (by omega), h i h72]
  · have h9 : 72 ≤ i ∧ i < 80 := ⟨Nat.le_of_not_lt h72, hi⟩
    rw [if_pos h9, if_pos h9]

/-- The packed buffer is a function of the checksum and of bytes 0 to 9: byte 10 is overwritten (R83). -/
theorem packChecksum_congr {a b : Buffer 11} (c : BitVec 12) (h : ∀ i, i < 80 → getBit a i = getBit b i) :
    packChecksum c a = packChecksum c b := by
  apply buffer_ext
  intro i hi
  rw [getBit_packChecksum, getBit_packChecksum]
  by_cases h80 : i < 80
  · rw [h i h80]
  · have hlast : (80 ≤ i ∧ i < 87) ∨ i = 87 := by omega
    rcases hlast with hc | rfl
    · rw [if_pos hc, if_pos hc]
    · rfl

section Encode
variable {s s' : State} (hpay : ∀ j, j < 72 → getBit s.msg j = getBit s'.msg j) (hty : s.typeField = s'.typeField)
include hpay hty

theorem getBit_frameOf_congr {i : Nat} (hi : i < 80) : getBit (frameOf s) i = getBit (frameOf s') i := by
  unfold frameOf
  rw [hty]
  exact getBit_buildFrame_congr s'.typeField hpay hi

/-- The frame checksum is a function of payload and type (R82). -/
theorem frameChecksum_congr : frameChecksum s = frameChecksum s' :=
  congrArg crc12 (leadingBits_congr fun _ hi => getBit_frameOf_congr hpay hty (Nat.lt_trans hi (by decide)))

/-- The message buffer `ENCODE` leaves is a function of payload and type (R80, R83). -/
theorem packedFrame_congr : packedFrame s = packedFrame s' := by
  unfold packedFrame
  rw [frameChecksum_congr hpay hty]
  exact packChecksum_congr _ fun _ hi => getBit_frameOf_congr hpay hty hi

end Encode

/-- Settles O37: on a written read set each command applies its unit's function to bits of its read set alone. -/
theorem resultsDependOnReadSetOnly : Obligations.ResultsDependOnReadSetOnly := by
  intro i s s' t t' hw hw' h h'
  cases i with
  | crc n =>
    intro hn hbits
    rw [exec, execCrc_of_written hn hw] at h
    rw [exec, execCrc_of_written hn hw'] at h'
    cases h
    cases h'
    exact congrArg crc12 (leadingBits_congr hbits)
  | ldpc =>
    intro hbits
    rw [exec, execLdpc_of_written hw] at h
    rw [exec, execLdpc_of_written hw'] at h'
    cases h
    cases h'
    exact codewordOf_congr hbits
  | map =>
    intro hbits
    rw [exec, execMap_of_written hw] at h
    rw [exec, execMap_of_written hw'] at h'
    cases h
    cases h'
    exact tonemap_congr hbits
  | encode =>
    intro hpay hty
    rw [exec, execEncode_of_written hw] at h
    rw [exec, execEncode_of_written hw'] at h'
    cases h
    cases h'
    have hmsg : packedFrame s = packedFrame s' := packedFrame_congr hpay hty
    have hrem : frameChecksum s = frameChecksum s' := frameChecksum_congr hpay hty
    simp only [complete_msg, complete_rem, complete_cw, complete_tone, markEncoded_msg, markEncoded_rem, markEncoded_cw,
      markEncoded_tone, hmsg, hrem, and_self]

end Sys2Proof.Machine
end

section
/-! The register port (20_memory.md R34 to R37): an equation per port for reads and writes, what a write leaves readable at the written
address and at every other, and what a host read leaves unchanged. -/

namespace Sys2Proof.Machine

/-! ### What each port reads (R34) -/

section Reads
variable {a : Byte} (s : State)

theorem readReg_of_msg {k : Fin 11} (h : portOf a = .msg k) : readReg s a = s.msg.get k := by rw [readReg, h]

theorem readReg_of_typeField (h : portOf a = .typeField) : readReg s a = s.typeField.setWidth 8 := by rw [readReg, h]

theorem readReg_of_cw {k : Fin 22} (h : portOf a = .cw k) : readReg s a = s.cw.get k := by rw [readReg, h]

theorem readReg_of_tone {j : Fin 79} (h : portOf a = .tone j) : readReg s a = (s.tone.get j).setWidth 8 := by rw [readReg, h]

theorem readReg_of_reserved (h : portOf a = .reserved) : readReg s a = 0x00#8 := by rw [readReg, h]

end Reads

/-- The high byte of `REM` is its bits 11:8, zero-extended (R35). -/
theorem readReg_remHigh (s : State) : readReg s 0x0E#8 = (s.rem >>> 8).setWidth 8 := by
  have hread : readReg s 0x0E#8 = (s.rem.extractLsb' 8 4).setWidth 8 := rfl
  rw [hread]
  apply BitVec.eq_of_toNat_eq
  have := s.rem.isLt
  simp only [BitVec.toNat_setWidth, BitVec.extractLsb'_toNat, BitVec.toNat_ushiftRight, Nat.shiftRight_eq_div_pow]
  omega

/-- The low byte of `REM` is its bits 7:0 (R35). -/
theorem readReg_remLow (s : State) : readReg s 0x0F#8 = s.rem.setWidth 8 := by
  have hread : readReg s 0x0F#8 = s.rem.extractLsb' 0 8 := rfl
  rw [hread, BitVec.setWidth_eq_extractLsb' (by decide)]

/-! ### What a write does to its port (R34, R37) -/

section Writes
variable {a : Byte} (v : Byte) (s : State)

theorem writeReg_of_msg {k : Fin 11} (h : portOf a = .msg k) :
    writeReg a v s = { s with msg := s.msg.set k v, msgWritten := s.msgWritten.set k true } := by rw [writeReg, h]

theorem writeReg_of_typeField (h : portOf a = .typeField) :
    writeReg a v s = { s with typeField := v.extractLsb' 0 3, typeWritten := true } := by rw [writeReg, h]

theorem writeReg_of_cw {k : Fin 22} (h : portOf a = .cw k) :
    writeReg a v s = { s with cw := s.cw.set k (v &&& cwMask k), cwWritten := s.cwWritten.set k true } := by rw [writeReg, h]

/-- Outside the addresses of `MSG`, `TYPE` and `CW` a write changes nothing (R37). -/
theorem writeReg_of_not_writable (h : (0x0C ≤ a.toNat ∧ a.toNat ≤ 0x0F) ∨ 0x26 ≤ a.toNat) : writeReg a v s = s := by
  rcases writeReg_cases a v s with ⟨k, hp, -⟩ | ⟨hp, -⟩ | ⟨k, hp, -⟩ | ⟨-, -, -, hw⟩
  · rw [portOf_msg] at hp; omega
  · rw [portOf_typeField] at hp; omega
  · rw [portOf_cw] at hp; omega
  · exact hw

end Writes

/-! ### What a write leaves readable (R34) -/

theorem cwMask_of_ne {k : Nat} (h : k ≠ 21) : cwMask k = 0xFF#8 := if_neg h

/-- A write of a message byte leaves every other port reading as before. -/
theorem readReg_msg_set {b : Byte} {k : Fin 11} (h : portOf b ≠ .msg k) (v : Byte) (record : Vector Bool 11) (s : State) :
    readReg { s with msg := s.msg.set k v, msgWritten := record } b = readReg s b := by
  unfold readReg
  cases hb : portOf b with
  | msg j =>
    have hne : k.val ≠ j.val := fun he => h (by rw [hb, Fin.ext he])
    exact Vector.getElem_set_ne k.isLt j.isLt hne
  | _ => rfl

/-- A write of `TYPE` leaves every other port reading as before. -/
theorem readReg_typeField_set {b : Byte} (h : portOf b ≠ .typeField) (ty : BitVec 3) (record : Bool) (s : State) :
    readReg { s with typeField := ty, typeWritten := record } b = readReg s b := by
  unfold readReg
  cases hb : portOf b with
  | typeField => exact absurd hb h
  | _ => rfl

/-- A write of a codeword byte leaves every other port reading as before. -/
theorem readReg_cw_set {b : Byte} {k : Fin 22} (h : portOf b ≠ .cw k) (v : Byte) (record : Vector Bool 22) (s : State) :
    readReg { s with cw := s.cw.set k v, cwWritten := record } b = readReg s b := by
  unfold readReg
  cases hb : portOf b with
  | cw j =>
    have hne : k.val ≠ j.val := fun he => h (by rw [hb, Fin.ext he])
    exact Vector.getElem_set_ne k.isLt j.isLt hne
  | _ => rfl

/-- A write leaves every other address reading as before: no writable register has two addresses. -/
theorem readReg_writeReg_of_ne {a b : Byte} (hne : b ≠ a) (v : Byte) (s : State) :
    readReg (writeReg a v s) b = readReg s b := by
  have hport : portOf a ≠ .reserved → portOf b ≠ portOf a := fun hr he => hne (eq_of_portOf_eq he hr)
  rcases writeReg_cases a v s with ⟨k, hp, hw⟩ | ⟨hp, hw⟩ | ⟨k, hp, hw⟩ | ⟨-, -, -, hw⟩
  · rw [hp] at hport
    rw [hw, readReg_msg_set (hport (by simp))]
  · rw [hp] at hport
    rw [hw, readReg_typeField_set (hport (by simp))]
  · rw [hp] at hport
    rw [hw, readReg_cw_set (hport (by simp))]
  · rw [hw]

/-- A byte of `MSG` reads as it was written (R11). -/
theorem readReg_writeReg_msg {a : Byte} (h : a.toNat ≤ 0x0A) (v : Byte) (s : State) : readReg (writeReg a v s) a = v := by
  have hp : portOf a = .msg ⟨a.toNat, by omega⟩ := (portOf_msg a _).mpr rfl
  rw [readReg_of_msg _ hp, writeReg_of_msg v s hp]
  exact Vector.getElem_set_self _

/-- `TYPE` keeps bits 2:0 of the byte written (R12). -/
theorem readReg_writeReg_typeField (v : Byte) (s : State) : readReg (writeReg 0x0B#8 v s) 0x0B#8 = v &&& 0x07#8 := by
  have hread : readReg (writeReg 0x0B#8 v s) 0x0B#8 = (v.extractLsb' 0 3).setWidth 8 := rfl
  rw [hread]
  apply BitVec.eq_of_toNat_eq
  have hmask : (v &&& 0x07#8).toNat = v.toNat % 2 ^ 3 := Nat.and_two_pow_sub_one_eq_mod v.toNat 3
  rw [hmask, BitVec.toNat_setWidth, BitVec.extractLsb'_toNat, Nat.shiftRight_zero]
  omega

/-- A byte of `CW` reads as it was written, its hardwired bits 0 (R14). -/
theorem readReg_writeReg_cw {a : Byte} (h : 0x10 ≤ a.toNat ∧ a.toNat ≤ 0x25) (v : Byte) (s : State) :
    readReg (writeReg a v s) a = v &&& cwMask (a.toNat - 0x10) := by
  have hp : portOf a = .cw ⟨a.toNat - 0x10, by omega⟩ := (portOf_cw a _).mpr (Nat.add_sub_of_le h.1).symm
  rw [readReg_of_cw _ hp, writeReg_of_cw v s hp]
  exact Vector.getElem_set_self _

/-- Settles O41: an address within a register's range names that register, and the written address is in the range of `MSG`, `TYPE`
or `CW`, or the write changes nothing. -/
theorem registerMap : Obligations.RegisterMap := by
  intro s
  refine ⟨fun k h => ?_, rfl, rfl, readReg_remHigh s, readReg_remLow s, fun k h => ?_, fun k h => ?_, fun a v b => ?_⟩
  · have haddr : (BitVec.ofNat 8 k).toNat = k := by rw [BitVec.toNat_ofNat]; omega
    exact readReg_of_msg s ((portOf_msg _ ⟨k, h⟩).mpr haddr)
  · have haddr : (BitVec.ofNat 8 (0x10 + k)).toNat = 0x10 + k := by rw [BitVec.toNat_ofNat]; omega
    exact readReg_of_cw s ((portOf_cw _ ⟨k, h⟩).mpr haddr)
  · have haddr : (BitVec.ofNat 8 (0x30 + k)).toNat = 0x30 + k := by rw [BitVec.toNat_ofNat]; omega
    exact readReg_of_tone s ((portOf_tone _ ⟨k, h⟩).mpr haddr)
  · split_ifs with hne hbyte htype hlast
    · exact readReg_writeReg_of_ne hne v s
    · obtain rfl := not_not.mp hne
      rcases hbyte with hmsg | hcw
      · exact readReg_writeReg_msg hmsg v s
      · rw [readReg_writeReg_cw (by omega), cwMask_of_ne (by omega)]
        exact BitVec.and_allOnes
    · rw [not_not.mp hne, htype]
      exact readReg_writeReg_typeField v s
    · rw [not_not.mp hne, hlast]
      exact readReg_writeReg_cw (by decide) v s
    · rw [not_not.mp hne, writeReg_of_not_writable v s]
      have htype' : a.toNat ≠ 0x0B := fun h => htype (BitVec.eq_of_toNat_eq h)
      have hlast' : a.toNat ≠ 0x25 := fun h => hlast (BitVec.eq_of_toNat_eq h)
      omega

/-- A register write keeps the hardwired bits of `CW` at 0 (R14, R37). -/
theorem codewordPadZero_writeReg (a v : Byte) {s : State} (h : CodewordPadZero s) : CodewordPadZero (writeReg a v s) := by
  obtain ⟨h174, h175⟩ := h
  rcases writeReg_cases a v s with ⟨k, -, hw⟩ | ⟨-, hw⟩ | ⟨k, -, hw⟩ | ⟨-, -, -, hw⟩ <;> rw [hw]
  · exact ⟨h174, h175⟩
  · exact ⟨h174, h175⟩
  · exact ⟨getBit_set_cwMask_pad (by decide) k v h174, getBit_set_cwMask_pad (by decide) k v h175⟩
  · exact ⟨h174, h175⟩

/-- Settles O42: the reserved and read-only addresses lie outside `MSG`, `TYPE` and `CW`, and a write masks the hardwired bits. -/
theorem reservedAndReadOnlyWritesAreDropped : Obligations.ReservedAndReadOnlyWritesAreDropped := fun s a v =>
  ⟨fun h => ⟨readReg_of_reserved s ((portOf_reserved a).mpr h), writeReg_of_not_writable v s (by omega)⟩,
    fun h => writeReg_of_not_writable v s (by omega), codewordPadZero_writeReg a v, writeReg_err a v s, writeReg_errCode a v s,
    writeReg_rem a v s, writeReg_tone a v s, writeReg_busy a v s, writeReg_cmdLatch a v s⟩

/-! ### Reads change nothing, writes are idempotent (R36) -/

/-- An idle read returns the register's byte and does nothing else. -/
theorem hostRead_of_idle {s : State} (h : s.busy = false) (a : Byte) : hostRead a s = emit (readReg s a) s :=
  if_neg fun hbusy => Bool.false_ne_true (h.symm.trans hbusy.1)

@[simp] theorem readReg_hostRead (a b : Byte) (s : State) : readReg (hostRead a s) b = readReg s b := by
  unfold hostRead
  split
  · exact readReg_congr rfl rfl rfl rfl rfl rfl b
  · exact readReg_congr rfl rfl rfl rfl rfl rfl b

@[simp] theorem hostRead_cmdLatch (a : Byte) (s : State) : (hostRead a s).cmdLatch = s.cmdLatch := by
  unfold hostRead
  split <;> rfl

@[simp] theorem writeReg_writeReg (a v : Byte) (s : State) : writeReg a v (writeReg a v s) = writeReg a v s := by
  rcases writeReg_cases a v s with ⟨k, hp, hw⟩ | ⟨hp, hw⟩ | ⟨k, hp, hw⟩ | ⟨-, -, -, hw⟩
  · rw [hw, writeReg_of_msg v _ hp, Vector.set_set, Vector.set_set]
  · rw [hw, writeReg_of_typeField v _ hp]
  · rw [hw, writeReg_of_cw v _ hp, Vector.set_set, Vector.set_set]
  · rw [hw, hw]

/-- Settles O43: a read, busy or idle, changes no register of the block, and a second equal write finds its byte already there. -/
theorem readsArePureAndWritesIdempotent : Obligations.ReadsArePureAndWritesIdempotent := fun s a v =>
  ⟨⟨fun b => readReg_hostRead a b s, hostRead_cmdLatch a s⟩, fun hidle => hostRead_of_idle hidle a, writeReg_writeReg a v s⟩

end Sys2Proof.Machine
end

section
/-! The opcode map (30_encoding.md R47, R49): a word decodes to a command exactly when it matches the command's row, so a word is
illegal when it matches no row; and what the issue of a command word does while idle (30_encoding.md R48, 60_exceptions.md R97). -/

namespace Sys2Proof

/-! ### The rows of the opcode map (R47) -/

/-- The word `w` equals the row's match under the row's mask, and the row's operand is the command's (R46, R47). -/
def RowMatches (w : Word) : Instr → Prop
  | .crc n => w &&& 0xFF00#16 = 0x1000#16 ∧ n = (w &&& 0x00FF#16).toNat
  | .ldpc => w &&& 0xFFFF#16 = 0x2000#16
  | .map => w &&& 0xFFFF#16 = 0x3000#16
  | .encode => w &&& 0xFFFF#16 = 0x4000#16

/-- The mask of a row without an operand keeps the whole word. -/
theorem and_fullMask (w : Word) : w &&& 0xFFFF#16 = w := BitVec.and_allOnes

theorem nField_toNat (w : Word) : (nField w).toNat = (w &&& 0x00FF#16).toNat := by
  have hmod : w.toNat &&& 255 = w.toNat % 256 := Nat.and_two_pow_sub_one_eq_mod w.toNat 8
  simp [nField, hmod]

theorem rowMatches_of_decode {w : Word} {i : Instr} (h : decode w = .ok i) : RowMatches w i := by
  rcases decode_cases w with ⟨hw, hd⟩ | ⟨hw, hd⟩ | ⟨hw, hd⟩ | ⟨hw, hd⟩ | ⟨-, -, -, -, hd⟩ <;> rw [hd] at h <;> cases h
  · exact ⟨hw, nField_toNat w⟩
  · exact (and_fullMask w).trans hw
  · exact (and_fullMask w).trans hw
  · exact (and_fullMask w).trans hw

theorem decode_of_rowMatches {w : Word} {i : Instr} (h : RowMatches w i) : decode w = .ok i := by
  cases i with
  | crc n =>
    obtain ⟨hw, rfl⟩ := h
    rw [← nField_toNat]
    exact if_pos hw
  | ldpc => rw [(and_fullMask w).symm.trans h]; rfl
  | map => rw [(and_fullMask w).symm.trans h]; rfl
  | encode => rw [(and_fullMask w).symm.trans h]; rfl

theorem decode_eq_ok_iff (w : Word) (i : Instr) : decode w = .ok i ↔ RowMatches w i :=
  ⟨rowMatches_of_decode, decode_of_rowMatches⟩

/-- Rejection is the complement of the rows (R47). -/
theorem decode_eq_error_iff (w : Word) : (∃ r, decode w = .error r) ↔ ∀ i, ¬ RowMatches w i := by
  simp only [← decode_eq_ok_iff]
  cases decode w <;> simp

/-- A word matches no row, the four rows written out. -/
theorem no_rowMatches_iff (w : Word) :
    (∀ i, ¬ RowMatches w i) ↔
      w &&& 0xFF00#16 ≠ 0x1000#16 ∧ w &&& 0xFFFF#16 ≠ 0x2000#16 ∧ w &&& 0xFFFF#16 ≠ 0x3000#16 ∧
        w &&& 0xFFFF#16 ≠ 0x4000#16 := by
  constructor
  · exact fun h => ⟨fun hcrc => h (.crc _) ⟨hcrc, rfl⟩, h .ldpc, h .map, h .encode⟩
  · rintro ⟨hcrc, hldpc, hmap, hencode⟩ i
    cases i with
    | crc n => exact fun h => hcrc h.1
    | ldpc => exact hldpc
    | map => exact hmap
    | encode => exact hencode

/-- Settles O2: a word decodes to a command exactly when it matches its row, and it is rejected when no row matches. -/
theorem decodeFollowsOpcodeMap : Obligations.DecodeFollowsOpcodeMap := fun w =>
  ⟨fun n => decode_eq_ok_iff w (.crc n), decode_eq_ok_iff w .ldpc, decode_eq_ok_iff w .map, decode_eq_ok_iff w .encode,
    (decode_eq_error_iff w).trans (no_rowMatches_iff w)⟩

/-! ### The illegal words by their fields (R49) -/

/-- Under the mask of `CRC` a word keeps `op` and `zero`, its upper byte. -/
theorem and_crcMask_eq_iff (w : Word) : w &&& 0xFF00#16 = 0x1000#16 ↔ w.toNat / 256 = 16 := by
  have hmask : w &&& 0xFF00#16 = w >>> 8 <<< 8 :=
    (BitVec.shiftLeft_ushiftRight (x := w) (n := 8)).symm
  rw [hmask]
  bv_omega

theorem illegalFields_iff (w : Word) :
    Machine.IllegalFields w ↔ w.toNat / 256 ≠ 16 ∧ w.toNat ≠ 0x2000 ∧ w.toNat ≠ 0x3000 ∧ w.toNat ≠ 0x4000 := by
  unfold Machine.IllegalFields
  omega

/-- The rejected words are the ones R49 lists. -/
theorem decode_eq_error_iff_illegalFields (w : Word) : (∃ r, decode w = .error r) ↔ Machine.IllegalFields w := by
  rw [decode_eq_error_iff, no_rowMatches_iff, illegalFields_iff, ne_eq, and_crcMask_eq_iff, and_fullMask]
  simp only [ne_eq, ← BitVec.toNat_inj, BitVec.toNat_ofNat, Nat.reducePow, Nat.reduceMod]

end Sys2Proof

namespace Sys2Proof.Machine

/-! ### A command word issued while idle (R48, R97) -/

/-- Raising an error records the code if it is the first, and sets `ERR` (R100). -/
theorem raiseErr_eq_withError (code : ErrCode) (s : State) : raiseErr code s = withError code s := by
  unfold raiseErr withError
  cases s.err <;> rfl

/-- While idle a host's `CMD` is the next step, and it issues its word (R48). -/
theorem step_cmd_of_idle {s : State} {w : Word} {rest : List HostAction} (hidle : s.busy = false)
    (hs : s.script = .cmd w :: rest) : step s = .next (issue w (afterAction s rest)) := by
  rw [step_of_not_blockMoves (blockMoves_of_idle hidle), hostMove_cons hs, perform]

theorem issue_of_error {s : State} {w : Word} {r : Reject} (hidle : s.busy = false) (hd : decode w = .error r) :
    issue w s = raiseErr .illegalCmd s := by
  simp [issue, hidle, hd]

/-- Settles O4: R49's list is the complement of the rows, and the issue of such a word only records the error. -/
theorem illegalWordRecordsIllegalCmd : Obligations.IllegalWordRecordsIllegalCmd := by
  refine ⟨decode_eq_error_iff_illegalFields, fun s w rest hw hidle hs => ?_⟩
  obtain ⟨r, hd⟩ := (decode_eq_error_iff_illegalFields w).mpr hw
  have hidle' : (afterAction s rest).busy = false := hidle
  rw [step_cmd_of_idle hidle hs, issue_of_error hidle' hd, raiseErr_eq_withError]

end Sys2Proof.Machine
end

section
/-! The consequences of the bit-serial form (40_crc12.md R64): linearity, leading zeros and bit 0, each from what one step does. -/

namespace Sys2Proof.Machine

/-- A register of zero takes in a leading zero without a trace (R64 (d)). -/
theorem crc12_cons_false (s : List Bool) : crc12 (false :: s) = crc12 s := by
  rw [crc12, List.foldl_cons, crcStep_zero, crc12]

theorem crc12_replicate_false (n : Nat) : crc12 (List.replicate n false) = 0#12 := by
  induction n with
  | zero => rfl
  | succ n ih => rw [List.replicate_succ, crc12_cons_false, ih]

/-- The register's run is linear in its start and in the data bits together. -/
theorem foldl_crcStep_xor (r t : BitVec 12) (a b : List Bool) (h : a.length = b.length) :
    (List.zipWith xor a b).foldl crcStep (r ^^^ t) = a.foldl crcStep r ^^^ b.foldl crcStep t := by
  induction a generalizing b r t with
  | nil =>
    obtain rfl := List.length_eq_zero_iff.mp h.symm
    rfl
  | cons x a ih =>
    cases b with
    | nil => cases h
    | cons y b =>
      simp only [List.zipWith_cons_cons, List.foldl_cons, crcStep_xor]
      exact ih _ _ b (Nat.succ.inj h)

/-- Bit 0 is clear at the start and after every step (R64 (f)). -/
theorem crc12_getLsbD_zero (s : List Bool) : (crc12 s).getLsbD 0 = false := by
  cases s using List.reverseRecOn with
  | nil => rfl
  | append_singleton s b => rw [crc12_snoc, crcStep_getLsbD_zero]

/-- Settles O20: linearity and leading zeros go through the run of the register, bit 0 through its last step. -/
theorem checksumConsequences : Obligations.ChecksumConsequences :=
  ⟨crc12_replicate_false, crc12_nil, foldl_crcStep_xor 0#12 0#12, crc12_cons_false, by decide, crc12_getLsbD_zero⟩

end Sys2Proof.Machine
end

section
/-! The byte-loading form (40_crc12.md R62): its register is that of the bit-serial form exclusive-or the bits of the last loaded
byte that have not been taken in yet, so the two forms agree exactly when those bits are 0. -/

namespace Sys2Proof.Machine

/-- The byte of stream bit `i`, shifted so that bit `i` is at bit 11 and the bits of the byte before it are gone. -/
def byteFrom {len : Nat} (b : Buffer len) (i : Nat) : BitVec 12 := (b.getD (i / 8) 0#8).setWidth 12 <<< (4 + i % 8)

/-- The bits the byte-loading form holds ahead after `n` steps: those of the last loaded byte beyond `n`, none when `n` ends a
byte. -/
def pendingBits {len : Nat} (b : Buffer len) (n : Nat) : BitVec 12 := if n % 8 = 0 then 0#12 else byteFrom b n

theorem getMsbD_byteFrom {len : Nat} (b : Buffer len) (i k : Nat) :
    (byteFrom b i).getMsbD k = (decide (i % 8 + k < 8) && getBit b (i + k)) := by
  unfold byteFrom getBit
  by_cases hk : i % 8 + k < 8
  · have hdiv : (i + k) / 8 = i / 8 := by omega
    have hmod : 11 - k - (4 + i % 8) = 7 - (i + k) % 8 := by omega
    have hin : k < 12 ∧ 11 - k < 12 ∧ 7 - (i + k) % 8 < 12 := by omega
    have hge : ¬ 11 - k < 4 + i % 8 := by omega
    rw [BitVec.getMsbD_eq_getLsbD, BitVec.getLsbD_shiftLeft, BitVec.getLsbD_setWidth, hdiv, hmod]
    simp only [hk, hin, hge, decide_true, decide_false, Bool.not_false, Bool.true_and]
  · have hlow : 11 - k < 4 + i % 8 := by omega
    rw [BitVec.getMsbD_eq_getLsbD, BitVec.getLsbD_shiftLeft]
    simp only [hk, hlow, decide_true, decide_false, Bool.not_true, Bool.and_false, Bool.false_and]

theorem msb_byteFrom {len : Nat} (b : Buffer len) (i : Nat) : (byteFrom b i).msb = getBit b i := by
  rw [BitVec.msb, getMsbD_byteFrom, Nat.add_zero, decide_eq_true (Nat.mod_lt i (by decide)), Bool.true_and, Nat.add_zero]

/-- Stream bit `n + k` is pending exactly when it lies in the last loaded byte. -/
theorem getMsbD_pendingBits {len : Nat} (b : Buffer len) (n k : Nat) :
    (pendingBits b n).getMsbD k = (decide (n + k < 8 * ((n + 7) / 8)) && getBit b (n + k)) := by
  unfold pendingBits
  split
  · have hend : ¬ n + k < 8 * ((n + 7) / 8) := by omega
    simp [hend]
  · rw [getMsbD_byteFrom]
    congr 1
    exact decide_eq_decide.mpr (by omega)

theorem pendingBits_eq_zero_iff {len : Nat} (b : Buffer len) (n : Nat) :
    pendingBits b n = 0#12 ↔ ∀ i, n ≤ i → i < 8 * ((n + 7) / 8) → getBit b i = false := by
  constructor
  · intro h i hn hi
    have hbit := getMsbD_pendingBits b n (i - n)
    rw [h, Nat.add_sub_of_le hn, decide_eq_true hi, Bool.true_and] at hbit
    exact hbit.symm.trans BitVec.getMsbD_zero
  · intro h
    refine BitVec.eq_of_getMsbD_eq fun k _ => ?_
    rw [getMsbD_pendingBits, BitVec.getMsbD_zero, Bool.and_eq_false_imp]
    exact fun hlt => h (n + k) (Nat.le_add_right n k) (of_decide_eq_true hlt)

/-- The load at a multiple of 8 makes the pending bits the rest of the current byte, at every step. -/
theorem load_pendingBits {len : Nat} (b : Buffer len) (n : Nat) (r : BitVec 12) :
    (if n % 8 = 0 then r ^^^ pendingBits b n ^^^ (b.getD (n / 8) 0#8).setWidth 12 <<< 4 else r ^^^ pendingBits b n) =
      r ^^^ byteFrom b n := by
  by_cases h : n % 8 = 0
  · rw [if_pos h, pendingBits, if_pos h, BitVec.xor_zero, byteFrom, h]
  · rw [if_neg h, pendingBits, if_neg h]

/-- The shift of a step leaves the bits of the byte after bit `n`. -/
theorem byteFrom_shiftLeft_one {len : Nat} (b : Buffer len) (n : Nat) : byteFrom b n <<< 1 = pendingBits b (n + 1) := by
  refine BitVec.eq_of_getMsbD_eq fun k hk => ?_
  rw [BitVec.getMsbD_shiftLeft, getMsbD_byteFrom, getMsbD_pendingBits, Nat.add_right_comm n 1 k, Nat.add_assoc n k 1]
  congr 1
  exact decide_eq_decide.mpr (by omega)

/-- The bit leaving the register as the data bit: a shift with no feedback. -/
theorem crcStep_msb (r : BitVec 12) : crcStep r r.msb = r <<< 1 := by
  simp [crcStep]

/-- One step of the byte-loading form is one bit-serial step on the checksum part and a shift of the pending bits. -/
theorem crcLoadStep_xor_pendingBits {len : Nat} (b : Buffer len) (n : Nat) (r : BitVec 12) :
    crcLoadStep b (r ^^^ pendingBits b n) n = crcStep r (getBit b n) ^^^ pendingBits b (n + 1) := by
  have hstep : crcLoadStep b (r ^^^ pendingBits b n) n = crcStep (r ^^^ byteFrom b n) false := by
    rw [crcLoadStep, load_pendingBits, crcStep, Bool.xor_false]
  calc crcLoadStep b (r ^^^ pendingBits b n) n
      = crcStep (r ^^^ byteFrom b n) (getBit b n ^^ getBit b n) := by rw [hstep, Bool.xor_self]
    _ = crcStep r (getBit b n) ^^^ crcStep (byteFrom b n) (getBit b n) := crcStep_xor _ _ _ _
    _ = crcStep r (getBit b n) ^^^ pendingBits b (n + 1) := by
        rw [← byteFrom_shiftLeft_one, ← crcStep_msb, msb_byteFrom]

/-- The register of the byte-loading form after `n` steps. -/
theorem crc12ByteLoading_eq {len : Nat} (b : Buffer len) (n : Nat) :
    crc12ByteLoading b n = crc12 (leadingBits b n) ^^^ pendingBits b n := by
  induction n with
  | zero => simp [crc12ByteLoading, pendingBits]
  | succ n ih =>
    have hsnoc : crc12ByteLoading b (n + 1) = crcLoadStep b (crc12ByteLoading b n) n := by
      simp [crc12ByteLoading, List.range_succ]
    rw [hsnoc, ih, crcLoadStep_xor_pendingBits, leadingBits_succ, crc12_snoc]

/-- Settles O19: the two forms differ by the pending bits, whatever the buffer. -/
theorem byteLoadingFormAgreesOnZeroTail : Obligations.ByteLoadingFormAgreesOnZeroTail := by
  refine ⟨fun len b n _ => ?_, by decide, by decide⟩
  rw [crc12ByteLoading_eq, ← pendingBits_eq_zero_iff]
  have hcancel := BitVec.xor_right_inj (x := pendingBits b n) (y := 0#12) (crc12 (leadingBits b n))
  rwa [BitVec.xor_zero] at hcancel

end Sys2Proof.Machine
end

section
/-! The checksum as a remainder (40_crc12.md R60): the register's polynomial and S(x) x^12 differ by a multiple of G(x) after every
step, and the register's polynomial has degree below 12. -/

namespace Sys2Proof.Machine

open Polynomial

/-- A bit as an element of GF(2). -/
def gf2 (b : Bool) : ZMod 2 := if b then 1 else 0

/-- The polynomial of a register: bit `i` is the coefficient of x^i (R60). -/
noncomputable def registerPoly (r : BitVec 12) : (ZMod 2)[X] := ∑ i : Fin 12, C (gf2 (r.getLsbD i)) * X ^ i.val

/-- S(x): the first bit is the highest power (R60). -/
noncomputable def sequencePoly (s : List Bool) : (ZMod 2)[X] :=
  ∑ j : Fin s.length, C (gf2 s[j]) * X ^ (s.length - 1 - j.val)

/-- G(x) (R18). -/
noncomputable def generatorPoly : (ZMod 2)[X] := X ^ 12 + X ^ 11 + X ^ 10 + X ^ 2 + X

@[simp] theorem gf2_false : gf2 false = 0 := rfl

@[simp] theorem gf2_true : gf2 true = 1 := rfl

theorem gf2_xor (a b : Bool) : gf2 (a ^^ b) = gf2 a + gf2 b := by
  cases a <;> cases b <;> decide

theorem generatorPoly_monic : generatorPoly.Monic := by
  unfold generatorPoly
  monicity!

theorem generatorPoly_degree : generatorPoly.degree = 12 := by
  unfold generatorPoly
  compute_degree!

theorem registerPoly_degree_lt (r : BitVec 12) : (registerPoly r).degree < generatorPoly.degree := by
  rw [generatorPoly_degree]
  exact degree_sum_fin_lt fun i => gf2 (r.getLsbD i)

theorem registerPoly_zero : registerPoly 0#12 = 0 := by
  simp [registerPoly]

theorem registerPoly_xor (r t : BitVec 12) : registerPoly (r ^^^ t) = registerPoly r + registerPoly t := by
  simp only [registerPoly, BitVec.getLsbD_xor, gf2_xor, C_add, add_mul, Finset.sum_add_distrib]

/-- G(x) is `POLY` with its leading coefficient (R18). -/
theorem registerPoly_poly : X ^ 12 + registerPoly Config.poly = generatorPoly := by
  simp [registerPoly, generatorPoly, gf2, Fin.sum_univ_succ, Config.poly]
  ring

/-- Shifting multiplies by x and drops the coefficient of x^12. -/
theorem registerPoly_shiftLeft_one (r : BitVec 12) :
    registerPoly (r <<< 1) + C (gf2 r.msb) * X ^ 12 = X * registerPoly r := by
  have hzero : (r <<< 1).getLsbD 0 = false := by simp
  have hlow : ∀ i : Fin 11, (r <<< 1).getLsbD (i.val + 1) = r.getLsbD i.val := fun i => by
    have hi : i.val + 1 < 12 := Nat.succ_lt_succ i.isLt
    have hge : ¬ i.val + 1 < 1 := by omega
    simp only [BitVec.getLsbD_shiftLeft, hi, hge, decide_true, decide_false, Bool.not_false, Bool.true_and, Nat.add_sub_cancel]
  unfold registerPoly
  rw [Fin.sum_univ_succ, Fin.sum_univ_castSucc (n := 11), mul_add, Finset.mul_sum]
  simp only [Fin.val_zero, Fin.val_succ, Fin.val_castSucc, Fin.val_last, hzero, hlow, BitVec.msb_eq_getLsbD_last]
  have hterm : ∀ i : Fin 11, X * (C (gf2 (r.getLsbD i)) * X ^ i.val) = C (gf2 (r.getLsbD i)) * X ^ (i.val + 1) := fun i => by
    ring
  simp only [hterm, gf2_false, C_0]
  ring

/-- One step of the register: multiply by x, bring in the data bit at x^12, subtract G(x) if the feedback bit is 1 (R61). -/
theorem registerPoly_crcStep (r : BitVec 12) (b : Bool) :
    X * registerPoly r + C (gf2 b) * X ^ 12 = registerPoly (crcStep r b) + C (gf2 (r.msb ^^ b)) * generatorPoly := by
  rw [← registerPoly_shiftLeft_one, add_assoc, ← add_mul, ← C_add, ← gf2_xor]
  unfold crcStep
  cases r.msb ^^ b with
  | false => simp
  | true =>
    rw [if_pos rfl, registerPoly_xor, ← registerPoly_poly]
    have hcancel : registerPoly Config.poly + registerPoly Config.poly = 0 := CharTwo.add_self_eq_zero _
    simp only [gf2_true, C_1, one_mul]
    linear_combination -hcancel

/-- S(x) as a sum over positions alone, whatever the list. -/
theorem sequencePoly_eq_sum_range (s : List Bool) :
    sequencePoly s = ∑ j ∈ Finset.range s.length, C (gf2 (s.getD j false)) * X ^ (s.length - 1 - j) := by
  rw [← Fin.sum_univ_eq_sum_range fun j => C (gf2 (s.getD j false)) * X ^ (s.length - 1 - j)]
  simp [sequencePoly]

/-- A further bit raises every power by one and is itself the constant term. -/
theorem sequencePoly_snoc (s : List Bool) (b : Bool) : sequencePoly (s ++ [b]) = X * sequencePoly s + C (gf2 b) := by
  have hterm : ∀ j ∈ Finset.range s.length,
      C (gf2 ((s ++ [b]).getD j false)) * X ^ (s.length - j) = X * (C (gf2 (s.getD j false)) * X ^ (s.length - 1 - j)) := by
    intro j hj
    have hlt : j < s.length := Finset.mem_range.mp hj
    have hpow : s.length - j = s.length - 1 - j + 1 := by omega
    rw [List.getD_append _ _ _ _ hlt, hpow]
    ring
  rw [sequencePoly_eq_sum_range, sequencePoly_eq_sum_range, List.length_append, List.length_singleton, Nat.add_sub_cancel,
    Finset.sum_range_succ, Finset.sum_congr rfl hterm, Finset.mul_sum]
  simp

/-- The register holds S(x) x^12 up to a multiple of G(x). -/
theorem generatorPoly_dvd_sub_registerPoly (s : List Bool) :
    generatorPoly ∣ sequencePoly s * X ^ 12 - registerPoly (crc12 s) := by
  induction s using List.reverseRecOn with
  | nil => simp [sequencePoly, registerPoly_zero]
  | append_singleton s b ih =>
    have hstep : sequencePoly (s ++ [b]) * X ^ 12 - registerPoly (crc12 (s ++ [b])) =
        X * (sequencePoly s * X ^ 12 - registerPoly (crc12 s)) + C (gf2 ((crc12 s).msb ^^ b)) * generatorPoly := by
      rw [sequencePoly_snoc, crc12_snoc]
      linear_combination registerPoly_crcStep (crc12 s) b
    rw [hstep]
    exact dvd_add (ih.mul_left X) (dvd_mul_left _ _)

/-- Settles O18: a polynomial of degree below 12 that differs from S(x) x^12 by a multiple of G(x) is the remainder. -/
theorem checksumIsPolynomialRemainder : Obligations.ChecksumIsPolynomialRemainder := fun s => by
  have hrem : registerPoly (crc12 s) = sequencePoly s * X ^ 12 %ₘ generatorPoly := by
    rw [modByMonic_eq_of_dvd_sub generatorPoly_monic (generatorPoly_dvd_sub_registerPoly s)]
    exact ((modByMonic_eq_self_iff generatorPoly_monic).mpr (registerPoly_degree_lt _)).symm
  exact hrem

end Sys2Proof.Machine
end

section
/-! The parity of a bit vector (41_ldpc.md R70, R71): as a sum over GF(2), from the most significant bit, it is a component of the
matrix product; as a count it is the population count mod 2; on bytes it is the three-step fold. -/

namespace Sys2Proof.Machine

/-! ### Exclusive-or as addition over GF(2) -/

theorem gf2_injective : Function.Injective gf2 := by decide

theorem gf2_and (a b : Bool) : gf2 (a && b) = gf2 a * gf2 b := by
  cases a <;> simp

/-- The exclusive-or over an index range is a sum over GF(2). -/
theorem gf2_foldl_xor_range (f : Nat → Bool) (n : Nat) :
    gf2 ((List.range n).foldl (fun p i => p ^^ f i) false) = ∑ i ∈ Finset.range n, gf2 (f i) := by
  induction n with
  | zero => rfl
  | succ n ih =>
    rw [List.range_succ, List.foldl_append, List.foldl_cons, List.foldl_nil, gf2_xor, ih, Finset.sum_range_succ]

/-- The order of the bits does not matter to parity: here the most significant is first, as in a stream (R30). -/
theorem gf2_parity {w : Nat} (v : BitVec w) : gf2 (parity v) = ∑ j ∈ Finset.range w, gf2 (v.getMsbD j) := by
  rw [parity, gf2_foldl_xor_range, ← Finset.sum_range_reflect]
  refine Finset.sum_congr rfl fun j hj => ?_
  rw [BitVec.getMsbD_eq_getLsbD, decide_eq_true (Finset.mem_range.mp hj), Bool.true_and]

/-- Parity as the exclusive-or of the bits, the most significant first. -/
theorem parity_eq_foldl_getMsbD {w : Nat} (v : BitVec w) :
    parity v = (List.range w).foldl (fun p j => p ^^ v.getMsbD j) false :=
  gf2_injective ((gf2_parity v).trans (gf2_foldl_xor_range _ w).symm)

/-! ### The matrix product (R70) -/

/-- Settles O23: parity bit `i` is the sum over GF(2) of the products of row `i` and the information word, bit by bit. -/
theorem parityIsMatrixProduct : Obligations.ParityIsMatrixProduct := fun gen info i => by
  have hsum : gf2 ((parityWord gen info).getMsbD i) =
      ∑ c : Fin 87, gf2 ((gen i).getMsbD c) * gf2 (info.getMsbD c) := by
    rw [parityWord_getMsbD, gf2_parity, ← Fin.sum_univ_eq_sum_range (fun j => gf2 ((info &&& gen i).getMsbD j))]
    simp only [BitVec.getMsbD_and, gf2_and, mul_comm]
  exact hsum

/-! ### The population count (R71) -/

/-- An exclusive-or over a list is 1 exactly when an odd number of its terms are. -/
theorem foldl_xor_eq_countP (f : Nat → Bool) (l : List Nat) :
    l.foldl (fun p i => p ^^ f i) false = decide (l.countP f % 2 = 1) := by
  induction l with
  | nil => rfl
  | cons x xs ih =>
    rw [List.foldl_cons, foldl_xor_start, ih, List.countP_cons]
    cases f x with
    | false => simp
    | true =>
      rw [if_pos rfl, Bool.false_xor, Bool.true_xor, ← decide_not, decide_eq_decide]
      omega

/-! ### Bytes (R71) -/

/-- The three steps of the fold take in the eight bits of the byte, each once. -/
theorem parityFold_eq_parity (v : Byte) : parityFold v = parity v := by
  simp only [parityFold, parity, List.range_succ, List.range_zero, List.nil_append, List.foldl_append, List.foldl_cons,
    List.foldl_nil, BitVec.getLsbD_xor, BitVec.getLsbD_ushiftRight, Nat.reduceAdd, Bool.false_xor,
    Bool.xor_assoc, Bool.xor_left_comm]

/-- A sum over stream bits, byte by byte. -/
theorem sum_range_bytes (f : Nat → ZMod 2) (n : Nat) :
    ∑ i ∈ Finset.range (8 * n), f i = ∑ k ∈ Finset.range n, ∑ j ∈ Finset.range 8, f (8 * k + j) := by
  induction n with
  | zero => rfl
  | succ n ih =>
    rw [Nat.mul_succ, Finset.sum_range_add, ih, ← Finset.sum_range_succ (fun k => ∑ j ∈ Finset.range 8, f (8 * k + j))]

/-- Within byte `k` the stream bits are the byte's bits, the most significant first (R30). -/
theorem getBit_eq_getMsbD_byte {len : Nat} (b : Buffer len) (k : Nat) {j : Nat} (hj : j < 8) :
    getBit b (8 * k + j) = (b.getD k 0#8).getMsbD j := by
  have hdiv : (8 * k + j) / 8 = k := by omega
  have hmod : 7 - (8 * k + j) % 8 = 7 - j := by omega
  rw [getBit, hdiv, hmod, BitVec.getMsbD_eq_getLsbD, decide_eq_true hj, Bool.true_and]

theorem toList_eq_map_getD {len : Nat} (b : Buffer len) : b.toList = (List.range len).map fun k => b.getD k 0#8 := by
  refine List.ext_getElem (by simp) fun k hk _ => ?_
  have hlen : k < len := by simpa using hk
  simp [getD_of_lt b hlen]

/-- The parity of a buffer's stream bits is the exclusive-or of its byte parities. -/
theorem parity_buffer {len : Nat} (b : Buffer len) :
    parity (BitVec.ofFnBE (n := 8 * len) fun i => getBit b i) = (b.toList.map parityFold).foldl xor false := by
  apply gf2_injective
  have hbyte : ∀ k, ∑ j ∈ Finset.range 8, gf2 (getBit b (8 * k + j)) = gf2 (parity (b.getD k 0#8)) := fun k => by
    rw [gf2_parity]
    exact Finset.sum_congr rfl fun j hj => by rw [getBit_eq_getMsbD_byte b k (Finset.mem_range.mp hj)]
  calc gf2 (parity (BitVec.ofFnBE (n := 8 * len) fun i => getBit b i))
      = ∑ i ∈ Finset.range (8 * len), gf2 (getBit b i) := by
        rw [gf2_parity]
        exact Finset.sum_congr rfl fun i hi => by rw [BitVec.getMsbD_ofFnBE, dif_pos (Finset.mem_range.mp hi)]
    _ = ∑ k ∈ Finset.range len, gf2 (parity (b.getD k 0#8)) := by
        rw [sum_range_bytes]
        exact Finset.sum_congr rfl fun k _ => hbyte k
    _ = gf2 ((b.toList.map parityFold).foldl xor false) := by
        rw [toList_eq_map_getD, List.map_map, List.foldl_map, ← gf2_foldl_xor_range]
        simp only [Function.comp_apply, parityFold_eq_parity]

/-- Settles O24: the count's last bit, the fold on a byte, and the sum over the bytes of a buffer. -/
theorem parityIsPopulationCountModTwo : Obligations.ParityIsPopulationCountModTwo :=
  ⟨fun w _ => foldl_xor_eq_countP _ (List.range w), parityFold_eq_parity, parity_buffer⟩

end Sys2Proof.Machine
end

section
/-! The codeword (41_ldpc.md R72 to R76): each bit of `ldpc174` is a bit of the intermediate vector, at the position the column order
gives it, so what holds of the intermediate vector holds of the codeword; and the `LDPC` command, which writes that codeword. -/

namespace Sys2Proof.Machine

/-! ### The intermediate vector (R72) -/

theorem parityWord_xor (gen : Fin 87 → BitVec 87) (a b : BitVec 87) :
    parityWord gen (a ^^^ b) = parityWord gen a ^^^ parityWord gen b := by
  refine bitVec_eq_of_getMsbD fun i hi => ?_
  have hrow : ∀ info, (parityWord gen info).getMsbD i = parity (info &&& gen ⟨i, hi⟩) :=
    fun info => parityWord_getMsbD gen info ⟨i, hi⟩
  have hdistrib : (a ^^^ b) &&& gen ⟨i, hi⟩ = (a &&& gen ⟨i, hi⟩) ^^^ (b &&& gen ⟨i, hi⟩) := by
    ext k hk
    simp [Bool.and_xor_distrib_right]
  rw [BitVec.getMsbD_xor, hrow, hrow, hrow, hdistrib, parity_xor]

theorem itmp_xor (gen : Fin 87 → BitVec 87) (a b : BitVec 87) : itmp gen (a ^^^ b) = itmp gen a ^^^ itmp gen b := by
  rw [itmp, parityWord_xor, ← BitVec.xor_append, itmp, itmp]

theorem itmp_getMsbD_parity (gen : Fin 87 → BitVec 87) (info : BitVec 87) {i : Nat} (hi : i < 87) :
    (itmp gen info).getMsbD i = (parityWord gen info).getMsbD i := by
  rw [itmp_getMsbD, if_pos hi]

theorem itmp_getMsbD_information (gen : Fin 87 → BitVec 87) (info : BitVec 87) (j : Nat) :
    (itmp gen info).getMsbD (87 + j) = info.getMsbD j := by
  have hge : ¬ 87 + j < 87 := by omega
  rw [itmp_getMsbD, if_neg hge, Nat.add_sub_cancel_left]

/-- The weight of the intermediate vector: its parity half and its information half. -/
theorem countP_itmp (gen : Fin 87 → BitVec 87) (info : BitVec 87) :
    (List.range 174).countP (itmp gen info).getMsbD =
      (List.range 87).countP info.getMsbD + (List.range 87).countP (parityWord gen info).getMsbD := by
  have hsplit : List.range 174 = List.range 87 ++ (List.range 87).map (87 + ·) := List.range_add (n := 87) (m := 87)
  have hparity : (List.range 87).countP (itmp gen info).getMsbD = (List.range 87).countP (parityWord gen info).getMsbD :=
    List.countP_congr fun i hi => by rw [itmp_getMsbD_parity gen info (List.mem_range.mp hi)]
  have hinfo : (List.range 87).countP ((itmp gen info).getMsbD ∘ (87 + ·)) = (List.range 87).countP info.getMsbD :=
    List.countP_congr fun j _ => by rw [Function.comp_apply, itmp_getMsbD_information]
  rw [hsplit, List.countP_append, List.countP_map, hparity, hinfo, Nat.add_comm]

section Placement
variable (gen : Fin 87 → BitVec 87) (col : Equiv.Perm (Fin 174)) (info : BitVec 87)

/-! ### Where each bit stands (R73, R74, R76) -/

theorem getBit_ldpc174_col (p : Fin 174) : getBit (ldpc174 gen col info) (col p) = (itmp gen info).getMsbD p :=
  getBit_scatter_col col.injective _ p

/-- Every codeword position is the target of one intermediate position. -/
theorem getBit_ldpc174_of_lt {q : Nat} (hq : q < 174) :
    getBit (ldpc174 gen col info) q = (itmp gen info).getMsbD (col.symm ⟨q, hq⟩) := by
  rw [← getBit_ldpc174_col, Equiv.apply_symm_apply]

theorem getBit_ldpc174_pad {q : Nat} (hq : 174 ≤ q) : getBit (ldpc174 gen col info) q = false :=
  getBit_scatter_pad col _ hq

theorem getBit_ldpc174_information (j : Fin 87) :
    getBit (ldpc174 gen col info) (col ⟨87 + j, by omega⟩) = info.getMsbD j := by
  rw [getBit_ldpc174_col, itmp_getMsbD_information]

theorem getBit_ldpc174_parity (i : Fin 87) :
    getBit (ldpc174 gen col info) (col ⟨i, by omega⟩) = parity (info &&& gen i) := by
  rw [getBit_ldpc174_col, itmp_getMsbD_parity gen info i.isLt, parityWord_getMsbD]

end Placement

/-- Settles O25: the bit of the intermediate vector, at the column of its position. -/
theorem codewordPlacement : Obligations.CodewordPlacement := fun gen col info =>
  ⟨fun p => (getBit_ldpc174_col gen col info p).trans (itmp_getMsbD gen info p),
    getBit_ldpc174_pad gen col info (by decide), getBit_ldpc174_pad gen col info (by decide)⟩

/-! ### Consequences (R76) -/

section Consequences
variable (gen : Fin 87 → BitVec 87) (col : Equiv.Perm (Fin 174))

theorem getBit_ldpc174_xor (a b : BitVec 87) (q : Nat) (hq : q < 174) :
    getBit (ldpc174 gen col (a ^^^ b)) q = (getBit (ldpc174 gen col a) q ^^ getBit (ldpc174 gen col b) q) := by
  simp only [getBit_ldpc174_of_lt gen col _ hq, itmp_xor, BitVec.getMsbD_xor]

/-- The zero word is the sum of a word with itself, so each of its codeword bits is. -/
theorem ldpc174_zero : ldpc174 gen col 0#87 = Vector.replicate 22 0#8 := by
  have hzero : ldpc174 gen col 0#87 = zeroBuffer 22 := by
    refine buffer_ext fun q _ => ?_
    rw [getBit_zeroBuffer]
    by_cases hq : q < 174
    · have hself := getBit_ldpc174_xor gen col 0#87 0#87 q hq
      rwa [BitVec.xor_self, Bool.xor_self] at hself
    · exact getBit_ldpc174_pad gen col _ (Nat.le_of_not_lt hq)
  exact hzero

/-- The information word is read off the codeword. -/
theorem ldpc174_injective : Function.Injective (ldpc174 gen col) := fun a b h => by
  refine bitVec_eq_of_getMsbD fun j hj => ?_
  have hbit : ∀ info, getBit (ldpc174 gen col info) (col ⟨87 + j, by omega⟩) = info.getMsbD j :=
    fun info => getBit_ldpc174_information gen col info ⟨j, hj⟩
  rw [← hbit a, ← hbit b, h]

/-- The column order moves the 1-bits of the intermediate vector and keeps their number. -/
theorem countP_ldpc174 (info : BitVec 87) :
    (List.range 174).countP (getBit (ldpc174 gen col info)) = (List.range 174).countP (itmp gen info).getMsbD := by
  rw [← List.map_coe_finRange_eq_range, List.countP_map, List.countP_map, ← col.map_finRange_perm.countP_eq, List.countP_map]
  exact List.countP_congr fun p _ => by simp only [Function.comp_apply, getBit_ldpc174_col]

end Consequences

/-- Settles O26: each clause is a fact about the intermediate vector, seen through the column order. -/
theorem ldpcConsequences : Obligations.LdpcConsequences := fun gen col =>
  ⟨getBit_ldpc174_xor gen col, ldpc174_zero gen col, getBit_ldpc174_information gen col, getBit_ldpc174_parity gen col,
    ldpc174_injective gen col, fun info => (countP_ldpc174 gen col info).trans (countP_itmp gen info)⟩

/-! ### The `LDPC` command (R75) -/

/-- Parity bit `i` of `CW`: the exclusive-or of the message bits that row `i` of `GEN` selects. -/
theorem getBit_codewordOf_parity (msg : Buffer 11) (i : Fin 87) :
    getBit (codewordOf msg) (Config.colOrder ⟨i, by omega⟩) =
      (List.range 87).foldl (fun p j => p ^^ (getBit msg j && (Config.gen i).getMsbD j)) false := by
  rw [codewordOf, getBit_ldpc174_parity, parity_eq_foldl_getMsbD]
  refine List.foldl_ext _ _ _ fun p j hj => ?_
  rw [BitVec.getMsbD_and, infoWord_getMsbD, decide_eq_true (List.mem_range.mp hj), Bool.true_and]

/-- Information bit `j` of `CW` is `MSG{j}`. -/
theorem getBit_codewordOf_information (msg : Buffer 11) (j : Fin 87) :
    getBit (codewordOf msg) (Config.colOrder ⟨87 + j, by omega⟩) = getBit msg j := by
  rw [codewordOf, getBit_ldpc174_information, infoWord_getMsbD, decide_eq_true j.isLt, Bool.true_and]

/-- Settles O27: the codeword `LDPC` writes, bit by bit; the latch is kept and the counter is 0. -/
theorem ldpcWritesCodewordOnly : Obligations.LdpcWritesCodewordOnly := by
  refine ⟨rfl, fun s hw => ⟨codewordOf s.msg, s.cmdLatch, 0, ?_, getBit_codewordOf_parity s.msg,
    getBit_codewordOf_information s.msg, getBit_codewordOf_pad s.msg (by decide), getBit_codewordOf_pad s.msg (by decide)⟩⟩
  rw [exec, execLdpc_of_written hw, complete]

end Sys2Proof.Machine
end

section
/-! The Frame Assembler's results read off its tables: every tone by its block (42_frame.md R85, R86), every bit and byte of the
message buffer that `ENCODE` leaves (R80 to R83), and the completions of `MAP` and `ENCODE` (R87, R88). -/

namespace Sys2Proof.Machine

/-! ### The tone sequence by blocks (R85, R86) -/

/-- The tone index of data symbol `D[k]`: the second data block stands behind one more sync block. -/
abbrev dataTone (k : Nat) : Nat := if k < 29 then 7 + k else 14 + k

theorem tonemap_sync (cw : Buffer 22) (i : Fin 7) :
    (tonemap cw)[i.val] = Config.costas[i] ∧ (tonemap cw)[36 + i.val] = Config.costas[i] ∧
      (tonemap cw)[72 + i.val] = Config.costas[i] := by
  have hi := i.isLt
  refine ⟨?_, ?_, ?_⟩
  · rw [tonemap_getElem, dif_pos hi]
    rfl
  · rw [tonemap_getElem, dif_neg (by omega), if_neg (by omega), dif_pos (by omega)]
    simp
  · rw [tonemap_getElem, dif_neg (by omega), if_neg (by omega), dif_neg (by omega), if_neg (by omega)]
    simp

theorem tonemap_data_first (cw : Buffer 22) {k : Nat} (hk : k < 29) : (tonemap cw)[7 + k] = dataSymbol cw k := by
  rw [tonemap_getElem, dif_neg (by omega), if_pos (by omega), Nat.add_sub_cancel_left]

theorem tonemap_data_second (cw : Buffer 22) {k : Nat} (hk : 29 ≤ k ∧ k < 58) : (tonemap cw)[14 + k] = dataSymbol cw k := by
  rw [tonemap_getElem, dif_neg (by omega), if_neg (by omega), dif_neg (by omega), if_pos (by omega), Nat.add_sub_cancel_left]

/-- Settles O29: the index of a tone decides its block, and a data symbol is the weighted sum of its bits. -/
theorem toneSequenceLayout : Obligations.ToneSequenceLayout := by
  refine fun cw => ⟨tonemap_sync cw, fun k => ?_, fun k => ?_⟩
  · rw [tonemap_data_first cw k.isLt, dataSymbol_toNat]
  · have hk : 29 ≤ 29 + k.val ∧ 29 + k.val < 58 := by omega
    have h : (tonemap cw)[43 + k.val] = dataSymbol cw (29 + k) := by
      simpa only [← Nat.add_assoc] using tonemap_data_second cw hk
    rw [h, dataSymbol_toNat]

/-- The three sync blocks as segments of the tone sequence (R85). -/
theorem tonemap_toList_sync (cw : Buffer 22) :
    (tonemap cw).toList.take 7 = Config.costas.toList ∧ ((tonemap cw).toList.drop 36).take 7 = Config.costas.toList ∧
      (tonemap cw).toList.drop 72 = Config.costas.toList := by
  refine ⟨?_, ?_, ?_⟩ <;> refine List.ext_getElem (by simp) fun i _ hi => ?_
  · simpa using (tonemap_sync cw ⟨i, by simpa using hi⟩).1
  · simpa using (tonemap_sync cw ⟨i, by simpa using hi⟩).2.1
  · simpa using (tonemap_sync cw ⟨i, by simpa using hi⟩).2.2

theorem tonemap_toList_data (cw : Buffer 22) (d : Tone) {k : Nat} (hk : k < 58) :
    (tonemap cw).toList.getD (dataTone k) d = dataSymbol cw k := by
  unfold dataTone
  split_ifs with h
  · rw [← tonemap_data_first cw h]
    simp [show 7 + k < 79 by omega]
  · rw [← tonemap_data_second cw ⟨Nat.le_of_not_lt h, hk⟩]
    simp [show 14 + k < 79 by omega]

/-- Settles O30: `MAP` writes the tone sequence of `CW`; the latch is kept and the counter is 0. -/
theorem mapWritesTonesOnly : Obligations.MapWritesTonesOnly := by
  refine ⟨rfl, fun s hw => ⟨tonemap s.cw, s.cmdLatch, 0, ?_, tonemap_toList_sync s.cw, fun k => ?_⟩⟩
  · rw [exec, execMap_of_written hw, complete]
  · rw [tonemap_toList_data s.cw 0 k.isLt, dataSymbol_toNat]

/-! ### The packed message buffer (R80 to R83) -/

/-- The first 76 bits after step 1 of `ENCODE` are payload, type and one 0 (R82). -/
theorem leadingBits_buildFrame (msg : Buffer 11) (ty : BitVec 3) : leadingBits (buildFrame ty msg) 76 = frameBits msg ty := by
  have hpay : leadingBits (buildFrame ty msg) 72 = leadingBits msg 72 :=
    leadingBits_congr fun i hi => by rw [getBit_buildFrame, if_neg (by omega)]
  simp [leadingBits_succ _ 75, leadingBits_succ _ 74, leadingBits_succ _ 73, leadingBits_succ _ 72, hpay, getBit_buildFrame,
    frameBits]

theorem frameChecksum_eq (s : State) : frameChecksum s = crc12 (frameBits s.msg s.typeField) :=
  congrArg crc12 (leadingBits_buildFrame s.msg s.typeField)

theorem getBit_packedFrame_payload (s : State) {i : Nat} (hi : i < 72) : getBit (packedFrame s) i = getBit s.msg i := by
  rw [getBit_packChecksum, if_neg (by omega), if_neg (by omega), if_neg (by omega), getBit_buildFrame, if_neg (by omega)]

theorem getBit_packedFrame_type (s : State) {i : Nat} (hi : i < 3) :
    getBit (packedFrame s) (72 + i) = s.typeField.getLsbD (2 - i) := by
  rw [getBit_packChecksum, if_neg (by omega), if_neg (by omega), if_neg (by omega), getBit_buildFrame, if_pos (by omega),
    if_pos (by omega), show 74 - (72 + i) = 2 - i by omega]

/-- The checksum lies across bytes 9 and 10: the five bits of byte 9 are or-ed into the zeros that step 1 leaves there. -/
theorem getBit_packedFrame_checksum (s : State) {i : Nat} (hi : i < 12) :
    getBit (packedFrame s) (75 + i) = (frameChecksum s).getLsbD (11 - i) := by
  rw [getBit_packChecksum, show 86 - (75 + i) = 11 - i by omega]
  by_cases h : 80 ≤ 75 + i
  · rw [if_pos (by omega)]
  · rw [if_neg (by omega), if_neg (by omega), if_pos (by omega), getBit_buildFrame, if_pos (by omega), if_neg (by omega),
      Bool.false_or]

theorem getBit_packedFrame_pad (s : State) : getBit (packedFrame s) 87 = false := by
  rw [getBit_packChecksum, if_neg (by omega), if_pos rfl]

/-- Settles O31: payload, type, checksum and pad are the four ranges of stream bits of the packed frame. -/
theorem encodePacksMessageBuffer : Obligations.EncodePacksMessageBuffer := fun s hw =>
  ⟨_, execEncode_of_written hw, frameChecksum_eq s, fun _ => getBit_packedFrame_payload s, fun _ => getBit_packedFrame_type s,
    fun _ => getBit_packedFrame_checksum s, getBit_packedFrame_pad s⟩

/-! ### The completion of `ENCODE` (R88) -/

/-- The bytes of the packed frame (R83, D5). -/
theorem packedFrame_eq (s : State) : packedFrame s =
    (s.msg.set 9 ((s.typeField.setWidth 8 <<< 5) ||| (frameChecksum s >>> 7).setWidth 8)).set 10
      ((frameChecksum s).setWidth 8 <<< 1) :=
  packChecksum_buildFrame (frameChecksum s) s.typeField s.msg

theorem packedFrame_getElem_payload (s : State) {b : Nat} (hb : b < 9) : (packedFrame s)[b] = s.msg[b] := by
  simp [packedFrame_eq, show 10 ≠ b by omega, show 9 ≠ b by omega]

/-- Type and checksum share byte 9 without a carry: the checksum's part is below 32. -/
theorem typeByte_or_checksumHigh_toNat (ty : BitVec 3) (c : BitVec 12) :
    ((ty.setWidth 8 <<< 5) ||| (c >>> 7).setWidth 8).toNat = ty.toNat * 32 + c.toNat / 128 := by
  have hty := ty.isLt
  have hc := c.isLt
  have hhigh : (ty.setWidth 8 <<< 5).toNat = ty.toNat <<< 5 := by
    simp [Nat.shiftLeft_eq]
    omega
  have hlow : ((c >>> 7).setWidth 8).toNat = c.toNat / 128 := by
    simp [Nat.shiftRight_eq_div_pow]
    omega
  rw [BitVec.toNat_or, hhigh, hlow, ← Nat.shiftLeft_add_eq_or_of_lt (by omega), Nat.shiftLeft_eq]

theorem checksumLow_toNat (c : BitVec 12) : (c.setWidth 8 <<< 1).toNat = 2 * c.toNat % 256 := by
  simp [Nat.shiftLeft_eq]
  omega

/-- The record of written bytes after `ENCODE`: bytes 9 and 10 are added (R112). -/
theorem encodedRecord_getElem (record : Vector Bool 11) (b : Nat) (hb : b < 11) :
    ((record.set 9 true).set 10 true)[b] = (record[b] || decide (9 ≤ b)) := by
  simp only [Vector.getElem_set]
  by_cases h9 : 9 ≤ b
  · have hlast : b = 9 ∨ b = 10 := by omega
    rcases hlast with rfl | rfl <;> simp
  · simp [show 10 ≠ b by omega, show 9 ≠ b by omega, h9]

/-- With the payload written, bytes 9 and 10 complete the read set of `LDPC` (R112). -/
theorem readSetWritten_ldpc_of_encode {s t : State} (hw : readSetWritten .encode s = true)
    (ht : t.msgWritten = (s.msgWritten.set 9 true).set 10 true) : readSetWritten .ldpc t = true := by
  obtain ⟨hpay, -⟩ := (readSetWritten_encode s).mp hw
  rw [readSetWritten_ldpc]
  intro k hk
  simp only [ht, encodedRecord_getElem]
  by_cases h9 : 9 ≤ k
  · simp [h9]
  · simp [hpay k (by omega)]

/-- `LDPC` and `ENCODE` mark all of `CW` as written, which is the read set of `MAP` (R112). -/
theorem readSetWritten_map_of_replicate {s : State} (hs : s.cwWritten = Vector.replicate 22 true) :
    readSetWritten .map s = true := by
  simp [readSetWritten_map, hs]

/-- Settles O32: the stages of `ENCODE` in one equation, with the bytes of the packed frame as numbers and the completions of `LDPC`
and `MAP` for the last two stages. -/
theorem encodeWritesFrame : Obligations.EncodeWritesFrame := by
  refine ⟨rfl, fun s hw => ⟨frameChecksum s, packedFrame s, codewordOf (packedFrame s), tonemap (codewordOf (packedFrame s)),
    (s.msgWritten.set 9 true).set 10 true, s.cmdLatch, 0, ?_, fun _ => packedFrame_getElem_payload s, rfl, ?_, ?_,
    encodedRecord_getElem s.msgWritten, ?_, ?_⟩⟩
  · rw [exec, execEncode_of_written hw, complete, markEncoded]
  · rw [← typeByte_or_checksumHigh_toNat, packedFrame_eq]
    simp
  · rw [← checksumLow_toNat, packedFrame_eq]
    simp
  · rw [exec, execLdpc_of_written (readSetWritten_ldpc_of_encode hw rfl), complete]
  · rw [exec, execMap_of_written (readSetWritten_map_of_replicate rfl), complete]

end Sys2Proof.Machine
end

section
/-! The equivalence of `ENCODE` with the host's own sequence (42_frame.md R91). A run is followed from one point where the block is
idle to the next, and at each such point its registers are those of a state that the model's register operations build: a command
followed by `WAIT` acts on them as the command's completion, however long it runs (30_encoding.md R52, R117). -/

namespace Sys2Proof.Machine

/-! ### A command and the `WAIT` behind it (R52, R117) -/

/-- While idle the host's next action is the next step. -/
theorem step_of_idle {s : State} {a : HostAction} {rest : List HostAction} (hidle : s.busy = false)
    (hs : s.script = a :: rest) : step s = .next (perform a (afterAction s rest)) := by
  rw [step_of_not_blockMoves (blockMoves_of_idle hidle), hostMove_cons hs]

/-- `WAIT` on a busy block polls until the command completes, then finds the block idle: the registers are those of the completion,
and only the script has lost the `WAIT`. The induction is over the polls that fall before the completion. -/
theorem run_wait_of_busy {s u : State} {i : Instr} {rest : List HostAction} (hbusy : s.busy = true)
    (hs : s.script = .wait :: rest) (hd : decode s.cmdLatch = .ok i) (hu : exec i { s with remaining := 0 } = .next u) :
    core.run (s.remaining + 2) s = Host.Outcome.next { u with script := rest } := by
  induction hn : s.remaining generalizing s with
  | zero =>
    obtain ⟨hidle, hrem, -, -, -, hscript, -⟩ := exec_control hu
    have hs0 : { s with remaining := 0 } = s := by rw [← hn]
    have hdone : step s = .next u := by
      rw [step_of_blockMoves ((blockMoves_of_busy hbusy).mpr (.inl hn)), blockStep, hd, ← hu, hs0]
    have hwait : step u = .next { u with script := rest } := by
      rw [step_of_idle hidle (hscript.trans hs), perform, hostWait, afterAction_busy, if_neg (by simp [hidle]), afterAction, hrem]
    rw [run_add 1 (run_one hdone)]
    exact run_one hwait
  | succ n ih =>
    have hpoll : step s = .next { s with remaining := n } := by
      have hb : blockMoves s = false := by simp [blockMoves, hn, hs]
      rw [step_of_not_blockMoves hb, hostMove_cons hs, perform, hostWait, afterAction_busy, if_pos hbusy, afterAction]
      simp [hn, hs]
    rw [show n + 1 + 2 = 1 + (n + 2) by omega, run_add _ (run_one hpoll)]
    exact ih (s := { s with remaining := n }) hbusy hs hd hu rfl

theorem issue_of_accepted {s : State} {w : Word} {i : Instr} (hidle : s.busy = false) (hd : decode w = .ok i)
    (ha : accepted i = true) : issue w s = accept w i s := by
  simp [issue, hidle, hd, ha]

theorem exec_total (i : Instr) (s : State) : ∃ t, exec i s = .next t := by
  cases i with
  | crc n =>
    rw [exec, execCrc]
    split_ifs <;> exact ⟨_, rfl⟩
  | ldpc =>
    rw [exec, execLdpc]
    split_ifs <;> exact ⟨_, rfl⟩
  | map =>
    rw [exec, execMap]
    split_ifs <;> exact ⟨_, rfl⟩
  | encode =>
    rw [exec, execEncode]
    split_ifs <;> exact ⟨_, rfl⟩

/-- Equal registers come with equal records of what has been written (R112). -/
theorem SameRegisters.readSetWritten_eq {s t : State} (h : SameRegisters s t) (i : Instr) :
    readSetWritten i s = readSetWritten i t := by
  obtain ⟨-, -, -, -, -, ⟨hmw, htw, hcww⟩, -, -⟩ := h
  exact readSetWritten_congr hmw htw hcww i

/-! ### Runs from idle to idle -/

/-- A run from `s` reaches an idle block: `script` is left to do, `results` have been read, and the registers are those of `r`. -/
def ReachesIdle (s : State) (script : List HostAction) (results : List Byte) (r : State) : Prop :=
  ∃ (k : Nat) (t : State), core.run k s = Host.Outcome.next t ∧ t.busy = false ∧ t.script = script ∧ t.results = results ∧
    SameRegisters t r

theorem reachesIdle_start {s : State} (hidle : s.busy = false) (script : List HostAction) :
    ReachesIdle { s with script := script } script s.results s :=
  ⟨0, _, run_zero _, hidle, rfl, rfl, by simp [SameRegisters]⟩

theorem sameRegisters_writeReg (a v : Byte) {s t : State} (h : SameRegisters s t) :
    SameRegisters (writeReg a v s) (writeReg a v t) := by
  obtain ⟨hmsg, hty, hrem, hcw, htone, ⟨hmw, htw, hcww⟩, herr, hcode⟩ := h
  unfold writeReg
  split <;> simp [SameRegisters, *]

section Run
variable {s r : State} {script rest : List HostAction} {results : List Byte}

/-- `WR` while idle. -/
theorem ReachesIdle.write {a v : Byte} (h : ReachesIdle s (.wr a v :: rest) results r) :
    ReachesIdle s rest results (writeReg a v r) := by
  obtain ⟨k, t, hrun, hidle, hs, hres, hreg⟩ := h
  have hstep : step t = .next (writeReg a v (afterAction t rest)) := by
    rw [step_of_idle hidle hs, perform, hostWrite, afterAction_busy, if_neg (by simp [hidle])]
  have hreg' : SameRegisters (afterAction t rest) r := hreg
  exact ⟨k + 1, _, (run_add 1 hrun).trans (run_one hstep), by simp [hidle], by simp, by simp [hres],
    sameRegisters_writeReg a v hreg'⟩

/-- `RD` while idle: the byte is that of the registers. -/
theorem ReachesIdle.read {a : Byte} (h : ReachesIdle s (.rd a :: rest) results r) (hr : r.busy = false) :
    ReachesIdle s rest (results ++ [readReg r a]) r := by
  obtain ⟨k, t, hrun, hidle, hs, hres, hreg⟩ := h
  have hidle' : (afterAction t rest).busy = false := hidle
  have hstep : step t = .next (emit (readReg (afterAction t rest) a) (afterAction t rest)) := by
    rw [step_of_idle hidle hs, perform, hostRead_of_idle hidle']
  have hbyte : readReg (afterAction t rest) a = readReg r a := by
    obtain ⟨hmsg, hty, hrem, hcw, htone, -, herr, hcode⟩ := hreg
    exact readReg_congr hmsg hty hrem hcw htone (by simp [statusByte, herr, hcode, hidle, hr]) a
  exact ⟨k + 1, _, (run_add 1 hrun).trans (run_one hstep), hidle, rfl, by simp [hres, hbyte], hreg⟩

/-- An accepted `CMD` and the `WAIT` behind it, whatever the latency: the completion acts on the registers. -/
theorem ReachesIdle.command {w : Word} {i : Instr} {u : State} (h : ReachesIdle s (.cmd w :: .wait :: rest) results r)
    (hd : decode w = .ok i) (ha : accepted i = true) (hw : readSetWritten i r = true) (hu : exec i r = .next u) :
    ReachesIdle s rest results u := by
  obtain ⟨k, t, hrun, hidle, hs, hres, hreg⟩ := h
  have hidle' : (afterAction t (.wait :: rest)).busy = false := hidle
  let t' := accept w i (afterAction t (.wait :: rest))
  have hissue : step t = .next t' := by rw [step_cmd_of_idle hidle hs, issue_of_accepted hidle' hd ha]
  obtain ⟨v, hv⟩ := exec_total i { t' with remaining := 0 }
  obtain ⟨hvidle, -, -, -, -, -, hvres⟩ := exec_control hv
  have hwait := run_wait_of_busy (s := t') rfl rfl hd hv
  have hreg' : SameRegisters { t' with remaining := 0 } r := hreg
  have hw' : readSetWritten i { t' with remaining := 0 } = true := (hreg'.readSetWritten_eq i).trans hw
  have hvu : SameRegisters v u := exec_sameRegisters hreg' (.inl hw') hv hu
  exact ⟨k + (1 + (t'.remaining + 2)), _, (run_add _ hrun).trans ((run_add _ (run_one hissue)).trans hwait), hvidle, rfl,
    hvres.trans hres, hvu⟩

end Run

/-! ### The two scripts of R91 -/

/-- The registers after the host's write of the type into byte 9 (R81). -/
abbrev afterTypeWrite (s : State) : State := writeReg 0x09#8 (s.typeField.setWidth 8 <<< 5) s

/-- The registers after `CRC 76` on the frame with the type in it. -/
abbrev afterFrameCrc (s : State) : State :=
  complete { afterTypeWrite s with rem := crc12 (leadingBits (afterTypeWrite s).msg 76) }

/-- The registers after the host has packed the checksum it read (R83). -/
abbrev afterPacking (s : State) : State :=
  writeReg 0x0A#8 ((frameChecksum s).setWidth 8 <<< 1)
    (writeReg 0x09#8 ((s.typeField.setWidth 8 <<< 5) ||| (frameChecksum s >>> 7).setWidth 8) (afterFrameCrc s))

/-- The registers after `LDPC` on the packed frame. -/
abbrev afterFrameLdpc (s : State) : State :=
  complete { afterPacking s with cw := codewordOf (afterPacking s).msg, cwWritten := Vector.replicate 22 true }

/-- The registers after `MAP` on its codeword. -/
abbrev afterFrameMap (s : State) : State :=
  complete { afterFrameLdpc s with tone := tonemap (afterFrameLdpc s).cw }

theorem writeReg_msg9 (v : Byte) (s : State) :
    writeReg 0x09#8 v s = { s with msg := s.msg.set 9 v, msgWritten := s.msgWritten.set 9 true } :=
  writeReg_of_msg v s (k := 9) (by decide)

theorem writeReg_msg10 (v : Byte) (s : State) :
    writeReg 0x0A#8 v s = { s with msg := s.msg.set 10 v, msgWritten := s.msgWritten.set 10 true } :=
  writeReg_of_msg v s (k := 10) (by decide)

theorem afterTypeWrite_msg (s : State) : (afterTypeWrite s).msg = frameOf s := by
  rw [afterTypeWrite, writeReg_msg9, frameOf, buildFrame]

theorem afterFrameCrc_rem (s : State) : (afterFrameCrc s).rem = frameChecksum s := by
  rw [complete_rem, afterTypeWrite_msg]

theorem afterPacking_msg (s : State) : (afterPacking s).msg = packedFrame s := by
  simp [afterPacking, writeReg_msg9, writeReg_msg10, packedFrame_eq]

theorem afterPacking_msgWritten (s : State) : (afterPacking s).msgWritten = (s.msgWritten.set 9 true).set 10 true := by
  simp [afterPacking, writeReg_msg9, writeReg_msg10]

/-- The registers the host's sequence ends in are those of the packed frame, its codeword and its tones. -/
theorem afterFrameMap_results (s : State) :
    (afterFrameMap s).msg = packedFrame s ∧ (afterFrameMap s).rem = frameChecksum s ∧
      (afterFrameMap s).cw = codewordOf (packedFrame s) ∧ (afterFrameMap s).tone = tonemap (codewordOf (packedFrame s)) := by
  refine ⟨afterPacking_msg s, ?_, ?_, ?_⟩
  · rw [complete_rem, complete_rem, writeReg_rem, writeReg_rem, afterFrameCrc_rem]
  · rw [complete_cw, complete_cw, afterPacking_msg]
  · rw [complete_tone, complete_cw, afterPacking_msg]

section Scripts
variable {s : State} (hw : readSetWritten .encode s = true)
include hw

/-- The payload and the host's own write of byte 9 are the bytes that `CRC 76` reads (R112). -/
theorem readSetWritten_afterTypeWrite : readSetWritten (.crc 76) (afterTypeWrite s) = true := by
  obtain ⟨hpay, -⟩ := (readSetWritten_encode s).mp hw
  rw [readSetWritten_crc (by decide)]
  intro k hk hk10
  simp only [afterTypeWrite, writeReg_msg9, Vector.getElem_set]
  split_ifs with h9
  · rfl
  · exact hpay k (by omega)

/-- The host's own sequence: its reads return the two parts of the checksum, and its registers are those after `MAP`. -/
theorem reachesIdle_hostSequence (hidle : s.busy = false) :
    ReachesIdle { s with script := hostSequence s.typeField (frameChecksum s) } []
      (s.results ++ [(frameChecksum s >>> 8).setWidth 8] ++ [(frameChecksum s).setWidth 8]) (afterFrameMap s) := by
  have hcrc := readSetWritten_afterTypeWrite hw
  have hldpc := readSetWritten_ldpc_of_encode hw (afterPacking_msgWritten s)
  have hmap : readSetWritten .map (afterFrameLdpc s) = true := readSetWritten_map_of_replicate rfl
  have hidle' : (afterFrameCrc s).busy = false := rfl
  have htype := (reachesIdle_start hidle (hostSequence s.typeField (frameChecksum s))).write
  have hchecked := htype.command (by decide) (by decide) hcrc (execCrc_of_written (by decide) hcrc)
  have hread := (hchecked.read hidle').read hidle'
  rw [readReg_remHigh, readReg_remLow, afterFrameCrc_rem] at hread
  have hpacked := hread.write.write
  have hencoded := hpacked.command (by decide) (by decide) hldpc (execLdpc_of_written hldpc)
  exact hencoded.command (by decide) (by decide) hmap (execMap_of_written hmap)

/-- The script of the one command. -/
theorem reachesIdle_encode (hidle : s.busy = false) :
    ReachesIdle { s with script := [.cmd 0x4000#16, .wait] } [] s.results (complete (encodeFrame s)) := by
  refine (reachesIdle_start hidle _).command (by decide) (by decide) hw ?_
  rw [exec, execEncode_of_written hw, encodeFrame_eq]

end Scripts

/-- Settles O33: each script's run ends in the registers its commands build, and these agree in `MSG`, `REM`, `CW` and `TONE`. -/
theorem encodeEqualsHostSequence : Obligations.EncodeEqualsHostSequence := by
  intro s c hidle hw hc
  rw [← frameChecksum_eq] at hc
  subst hc
  obtain ⟨k, t, hrun, htidle, hts, htres, htmsg, -, htrem, htcw, httone, -⟩ := reachesIdle_hostSequence hw hidle
  obtain ⟨k', t', hrun', htidle', hts', -, htmsg', -, htrem', htcw', httone', -⟩ := reachesIdle_encode hw hidle
  obtain ⟨hmsg, hrem, hcw, htone⟩ := afterFrameMap_results s
  rw [encodeFrame_eq] at htmsg' htrem' htcw' httone'
  exact ⟨k, k', t, t', hrun, ⟨hts, htidle⟩, hrun', ⟨hts', htidle'⟩, by simpa using htres,
    (htmsg.trans hmsg).trans htmsg'.symm, (htrem.trans hrem).trans htrem'.symm, (htcw.trans hcw).trans htcw'.symm,
    (httone.trans htone).trans httone'.symm⟩

end Sys2Proof.Machine
end

section
/-! The error record (60_exceptions.md R96 to R100). Which error a host action raises depends on `BUSY` and the action alone, and
`raisedBy` is that table. A step then does one of three things to the record: it records the error of the host's action, it resets
the block, or it leaves the record alone. -/

namespace Sys2Proof.Machine

/-! ### The table of R96 -/

/-- The error a host action raises on a block whose `BUSY` bit is `busy` (R97, R98, R99). -/
def raisedBy (busy : Bool) : HostAction → Option ErrCode
  | .wr _ _ => if busy then some .busyViolation else none
  | .cmd w =>
    if busy then some .busyViolation
    else
      match decode w with
      | .error _ => some .illegalCmd
      | .ok i => if accepted i then none else some .crcLen
  | .rd _ => none
  | .wait => none
  | .reset => none

theorem raisedBy_busy_wr (a v : Byte) : raisedBy true (.wr a v) = some .busyViolation := rfl

theorem raisedBy_busy_cmd (w : Word) : raisedBy true (.cmd w) = some .busyViolation := rfl

theorem raisedBy_cmd_of_error {w : Word} {r : Reject} (hd : decode w = .error r) :
    raisedBy false (.cmd w) = some .illegalCmd := by simp [raisedBy, hd]

theorem raisedBy_cmd_of_ok {w : Word} {i : Instr} (hd : decode w = .ok i) :
    raisedBy false (.cmd w) = if accepted i then none else some .crcLen := by simp [raisedBy, hd]

/-- The operands refused at issue are the counts above 88 (R46, R98). -/
theorem accepted_eq_false_iff (i : Instr) : accepted i = false ↔ ∃ n, i = .crc n ∧ 88 < n := by
  cases i <;> simp [accepted, Config.crcMax]

/-- The rows of R96: the cause of each error. Code 0 is no error and has none. -/
def Causes (busy : Bool) (a : HostAction) : ErrCode → Prop
  | .none => False
  | .illegalCmd => busy = false ∧ ∃ w r, a = .cmd w ∧ decode w = .error r
  | .crcLen => busy = false ∧ ∃ w n, a = .cmd w ∧ decode w = .ok (.crc n) ∧ 88 < n
  | .busyViolation => busy = true ∧ ((∃ w, a = .cmd w) ∨ ∃ b v, a = .wr b v)

/-- An action raises an error exactly when it is listed as a cause of it. -/
theorem raisedBy_eq_some_iff (busy : Bool) (a : HostAction) (c : ErrCode) : raisedBy busy a = some c ↔ Causes busy a c := by
  cases a with
  | cmd w =>
    cases busy with
    | true => cases c <;> simp [raisedBy_busy_cmd, Causes]
    | false =>
      cases hd : decode w with
      | error r => cases c <;> simp [raisedBy_cmd_of_error hd, Causes, hd]
      | ok i => cases c <;> simp [raisedBy_cmd_of_ok hd, Causes, hd, accepted_eq_false_iff]
  | wr a v => cases busy <;> cases c <;> simp [raisedBy, Causes]
  | rd a => cases c <;> simp [raisedBy, Causes]
  | wait => cases c <;> simp [raisedBy, Causes]
  | reset => cases c <;> simp [raisedBy, Causes]

/-! ### What a host action does to the record -/

/-- A read adds one byte to the results, and may draw it. -/
theorem hostRead_eq (a : Byte) (s : State) : ∃ b d, hostRead a s = { emit b s with draws := d } := by
  unfold hostRead
  split
  · exact ⟨_, _, rfl⟩
  · exact ⟨_, _, rfl⟩

/-- An action that raises an error does nothing else (R97, R98, R99). -/
theorem perform_of_raised {s : State} {a : HostAction} {c : ErrCode} (h : raisedBy s.busy a = some c) :
    perform a s = raiseErr c s := by
  cases a with
  | wr a v =>
    cases hb : s.busy with
    | true =>
      rw [hb, raisedBy_busy_wr] at h
      cases h
      simp [perform, hostWrite, hb]
    | false =>
      rw [hb] at h
      cases h
  | cmd w =>
    rw [perform]
    rcases issue_cases w s with ⟨hb, hi⟩ | ⟨hb, ⟨r, hd⟩, hi⟩ | ⟨hb, ⟨i, hd, ha⟩, hi⟩ | ⟨hb, i, hd, ha, -⟩ <;> rw [hb] at h
    · cases h
      exact hi
    · rw [raisedBy_cmd_of_error hd] at h
      cases h
      exact hi
    · rw [raisedBy_cmd_of_ok hd, ha] at h
      cases h
      exact hi
    · rw [raisedBy_cmd_of_ok hd, ha] at h
      cases h
  | rd a => cases h
  | wait => cases h
  | reset => cases h

/-- An action that raises no error keeps the record, unless it is a reset. -/
theorem perform_of_not_raised {s : State} {a : HostAction} (h : raisedBy s.busy a = none) (ha : a ≠ .reset) :
    (perform a s).err = s.err ∧ (perform a s).errCode = s.errCode := by
  cases a with
  | wr a v =>
    cases hb : s.busy with
    | true =>
      rw [hb, raisedBy_busy_wr] at h
      cases h
    | false => simp [perform, hostWrite, hb]
  | cmd w =>
    rw [perform]
    rcases issue_cases w s with ⟨hb, -⟩ | ⟨hb, ⟨r, hd⟩, -⟩ | ⟨hb, ⟨i, hd, ha⟩, -⟩ | ⟨-, i, -, -, hi⟩
    · simp [raisedBy, hb] at h
    · simp [raisedBy, hb, hd] at h
    · simp [raisedBy, hb, hd, ha] at h
    · rw [hi]
      exact ⟨rfl, rfl⟩
  | rd a =>
    obtain ⟨b, d, hr⟩ := hostRead_eq a s
    rw [perform, hr]
    exact ⟨rfl, rfl⟩
  | wait =>
    rw [perform, hostWait]
    split
    · exact ⟨rfl, rfl⟩
    · exact ⟨rfl, rfl⟩
  | reset => exact absurd rfl ha

/-! ### What a step does to the record (R100) -/

/-- The error the step raises: that of the host's next action, when the host moves; a completion raises none. -/
def stepError (s : State) : Option ErrCode :=
  if blockMoves s then none else s.script.head?.bind (raisedBy s.busy)

theorem stepError_cons {s : State} {a : HostAction} {rest : List HostAction} (hb : blockMoves s = false)
    (hs : s.script = a :: rest) : stepError s = raisedBy s.busy a := by simp [stepError, hb, hs]

theorem stepError_eq_some_iff (s : State) (c : ErrCode) :
    stepError s = some c ↔ blockMoves s = false ∧ ∃ a rest, s.script = a :: rest ∧ raisedBy s.busy a = some c := by
  cases hb : blockMoves s with
  | true => simp [stepError, hb]
  | false => cases hs : s.script <;> simp [stepError, hb, hs]

/-- A host action that raises an error has the record as its only effect. -/
theorem step_of_raised {s : State} {a : HostAction} {rest : List HostAction} {c : ErrCode} (hb : blockMoves s = false)
    (hs : s.script = a :: rest) (hc : raisedBy s.busy a = some c) :
    step s = .next (withError c (afterAction s rest)) := by
  have hc' : raisedBy (afterAction s rest).busy a = some c := hc
  rw [step_of_not_blockMoves hb, hostMove_cons hs, perform_of_raised hc', raiseErr_eq_withError]

/-- A completion keeps the record: no accepted command records an error, and a record that is set stays. -/
theorem exec_errorRecord {i : Instr} {s t : State} (h : exec i s = .next t) (hi : accepted i = true ∨ s.err = true) :
    t.err = s.err ∧ t.errCode = s.errCode := by
  rcases exec_cases h with ⟨n, -, -, -, rfl⟩ | ⟨n, rfl, hn, rfl⟩ | ⟨-, -, rfl⟩ | ⟨-, -, rfl⟩ | ⟨-, -, rfl⟩ | ⟨-, -, rfl⟩
  · simp
  · have hr : accepted (.crc n) = false := (accepted_eq_false_iff _).mpr ⟨n, rfl, hn⟩
    have herr : s.err = true := hi.resolve_left (by simp [hr])
    simp [herr]
  · simp
  · simp
  · simp
  · simp

/-- Everything a step can do to the record, in a state where no completion meets a refused count with a clear record. -/
theorem step_errorRecord_cases {s t : State} (h : step s = .next t) (hl : LatchHoldsCommand s ∨ s.err = true) :
    (∃ a rest c, s.script = a :: rest ∧ stepError s = some c ∧ t = withError c (afterAction s rest)) ∨
    (blockMoves s = false ∧ stepError s = none ∧ ∃ rest, s.script = .reset :: rest ∧ t = resetBlock (afterAction s rest)) ∨
    (stepError s = none ∧ t.err = s.err ∧ t.errCode = s.errCode) := by
  rcases step_cases h with ⟨hb, hbusy, i, hd, he⟩ | ⟨hb, hs, -, rfl⟩ | ⟨hb, a, rest, hs, rfl⟩
  · have hi : accepted i = true ∨ s.err = true := hl.imp_left fun hlatch => by
      obtain ⟨j, hj, ha⟩ := hlatch hbusy
      rw [hd] at hj
      cases hj
      exact ha
    exact .inr (.inr ⟨by simp [stepError, hb], exec_errorRecord he hi⟩)
  · exact .inr (.inr ⟨by simp [stepError, hs], rfl, rfl⟩)
  · have hse := stepError_cons hb hs
    cases hc : raisedBy s.busy a with
    | some c =>
      have ht := step_of_raised hb hs hc
      rw [h] at ht
      exact .inl ⟨a, rest, c, hs, hse.trans hc, Host.Outcome.next.inj ht⟩
    | none =>
      by_cases ha : a = .reset
      · subst ha
        exact .inr (.inl ⟨hb, hse.trans hc, rest, hs, rfl⟩)
      · exact .inr (.inr ⟨hse.trans hc, perform_of_not_raised (s := afterAction s rest) hc ha⟩)

/-- A step from a clear record leaves exactly the error it raises. -/
theorem step_errorRecord_of_clear {s t : State} (h : step s = .next t) (hlatch : LatchHoldsCommand s) (herr : s.err = false)
    (hcode : s.errCode = .none) : t.err = (stepError s).isSome ∧ t.errCode = (stepError s).getD .none := by
  rcases step_errorRecord_cases h (.inl hlatch) with ⟨a, rest, c, -, he, rfl⟩ | ⟨-, he, rest, -, rfl⟩ | ⟨he, ht, htc⟩
  · simp [he, withError, herr]
  · simp [he]
  · simp [he, ht, htc, herr, hcode]

theorem stepError_ne_none (s : State) : stepError s ≠ some .none := by
  rw [ne_eq, stepError_eq_some_iff]
  rintro ⟨-, a, -, -, ha⟩
  exact (raisedBy_eq_some_iff _ _ _).mp ha

theorem stepError_eq_illegalCmd_iff (s : State) :
    stepError s = some .illegalCmd ↔ s.busy = false ∧ ∃ w r rest, s.script = .cmd w :: rest ∧ decode w = .error r := by
  simp only [stepError_eq_some_iff, raisedBy_eq_some_iff, Causes]
  constructor
  · rintro ⟨-, _, rest, hs, hidle, w, r, rfl, hd⟩
    exact ⟨hidle, w, r, rest, hs, hd⟩
  · rintro ⟨hidle, w, r, rest, hs, hd⟩
    exact ⟨blockMoves_of_idle hidle, _, rest, hs, hidle, w, r, rfl, hd⟩

theorem stepError_eq_crcLen_iff (s : State) :
    stepError s = some .crcLen ↔
      s.busy = false ∧ ∃ w n rest, s.script = .cmd w :: rest ∧ decode w = .ok (.crc n) ∧ 88 < n := by
  simp only [stepError_eq_some_iff, raisedBy_eq_some_iff, Causes]
  constructor
  · rintro ⟨-, _, rest, hs, hidle, w, n, rfl, hd, hn⟩
    exact ⟨hidle, w, n, rest, hs, hd, hn⟩
  · rintro ⟨hidle, w, n, rest, hs, hd, hn⟩
    exact ⟨blockMoves_of_idle hidle, _, rest, hs, hidle, w, n, rfl, hd, hn⟩

theorem stepError_eq_busyViolation_iff (s : State) :
    stepError s = some .busyViolation ↔ s.busy = true ∧ blockMoves s = false ∧
      ∃ rest, (∃ w, s.script = .cmd w :: rest) ∨ ∃ a v, s.script = .wr a v :: rest := by
  simp only [stepError_eq_some_iff, raisedBy_eq_some_iff, Causes]
  constructor
  · rintro ⟨hb, _, rest, hs, hbusy, ⟨w, rfl⟩ | ⟨a, v, rfl⟩⟩
    · exact ⟨hbusy, hb, rest, .inl ⟨w, hs⟩⟩
    · exact ⟨hbusy, hb, rest, .inr ⟨a, v, hs⟩⟩
  · rintro ⟨hbusy, hb, rest, ⟨w, hs⟩ | ⟨a, v, hs⟩⟩
    · exact ⟨hb, _, rest, hs, hbusy, .inl ⟨w, rfl⟩⟩
    · exact ⟨hb, _, rest, hs, hbusy, .inr ⟨a, v, rfl⟩⟩

/-! ### The obligations -/

/-- The word 0x1000 + n is that of `CRC n` (R46, R47). -/
theorem decode_crcWord {n : Nat} (hn : n ≤ 255) : decode (0x1000#16 + BitVec.ofNat 16 n) = .ok (.crc n) := by
  have hw : (0x1000#16 + BitVec.ofNat 16 n).toNat = 0x1000 + n := by
    rw [BitVec.toNat_add, BitVec.toNat_ofNat, BitVec.toNat_ofNat]
    omega
  refine decode_of_rowMatches (i := .crc n) ⟨(and_crcMask_eq_iff _).mpr (by omega), ?_⟩
  rw [← nField_toNat, nField, BitVec.extractLsb'_toNat, hw]
  omega

/-- Settles O5: the word decodes, and its count is refused at issue. -/
theorem overlongCrcIsRefusedAtIssue : Obligations.OverlongCrcIsRefusedAtIssue := by
  intro s n rest hlow hhigh hidle hs
  refine step_of_raised (blockMoves_of_idle hidle) hs ((raisedBy_eq_some_iff _ _ _).mpr ?_)
  exact ⟨hidle, _, n, rfl, decode_crcWord hhigh, by omega⟩

/-- Before its completion a busy block leaves the move to the host, if the host has an action (R117). -/
theorem blockMoves_of_remaining {s : State} {a : HostAction} {rest : List HostAction} (hrem : s.remaining ≠ 0)
    (hs : s.script = a :: rest) : blockMoves s = false := by simp [blockMoves, hrem, hs]

/-- Settles O7: `CMD` and `WR` raise `BUSY_VIOLATION` whatever their operands, and a read adds a byte to the results. -/
theorem busyCommandOrWriteIsDropped : Obligations.BusyCommandOrWriteIsDropped := by
  intro s rest hbusy hrem
  refine ⟨fun w hs => ?_, fun a v hs => ?_, fun a hs => ?_⟩
  · exact step_of_raised (blockMoves_of_remaining hrem hs) hs (by rw [hbusy, raisedBy_busy_cmd])
  · exact step_of_raised (blockMoves_of_remaining hrem hs) hs (by rw [hbusy, raisedBy_busy_wr])
  · obtain ⟨b, d, hread⟩ := hostRead_eq a (afterAction s rest)
    refine ⟨{ emit b (afterAction s rest) with draws := d }, ?_, rfl, rfl, hbusy, rfl, rfl, rfl, rfl, rfl, rfl⟩
    rw [step_of_not_blockMoves (blockMoves_of_remaining hrem hs), hostMove_cons hs, perform, hread]

/-- Settles O10: of the three things a step does to the record, only the first sets a clear one and only a reset clears a set one. -/
theorem errorRecordIsStickyAndFirst : Obligations.ErrorRecordIsStickyAndFirst := by
  refine ⟨raiseErr_eq_withError, fun s t hlatch herr h ht => ?_, fun s t herr h => ?_⟩
  · rcases step_errorRecord_cases h (.inl hlatch) with ⟨a, rest, c, hs, -, ht'⟩ | ⟨-, -, rest, -, rfl⟩ | ⟨-, hkeep, -⟩
    · exact ⟨a, rest, c, hs, ht'⟩
    · cases ht
    · rw [hkeep, herr] at ht
      cases ht
  · rcases step_errorRecord_cases h (.inr herr) with ⟨a, rest, c, -, -, rfl⟩ | ⟨hb, -, rest, hs, -⟩ | ⟨-, hkeep, hcode⟩
    · exact .inl (by simp [withError, herr])
    · exact .inr ⟨hb, rest, hs⟩
    · exact .inl ⟨hkeep.trans herr, hcode⟩

/-- Settles O11: from a clear record a step leaves the error it raises, which the table of R96 gives for each code. -/
theorem errorsHaveListedCauses : Obligations.ErrorsHaveListedCauses := by
  refine ⟨⟨rfl, rfl, rfl, rfl⟩, fun s t hlatch herr hcode h => ?_⟩
  obtain ⟨hterr, htcode⟩ := step_errorRecord_of_clear h hlatch herr hcode
  have hne := stepError_ne_none s
  rw [hterr, htcode, ← stepError_eq_illegalCmd_iff, ← stepError_eq_crcLen_iff, ← stepError_eq_busyViolation_iff]
  cases he : stepError s with
  | none => simp
  | some c =>
    have hc : c ≠ .none := fun hc => hne (by rw [he, hc])
    simp [hc]

end Sys2Proof.Machine
end

section
/-! The encoder (30_encoding.md R45 to R47): the word of a command has the command's `op` and `zero` in its upper byte and the operand
in its lower one, so it matches the command's row, and no other word does with that operand. -/

namespace Sys2Proof

/-- A word in the row of `CRC n`, as a number: the upper byte is 0x10, the lower one the operand. -/
theorem rowMatches_crc_iff (w : Word) (n : Nat) : RowMatches w (.crc n) ↔ n ≤ 255 ∧ w.toNat = 0x1000 + n := by
  rw [RowMatches, and_crcMask_eq_iff, ← nField_toNat, nField, BitVec.extractLsb'_toNat, Nat.shiftRight_zero]
  omega

theorem encode_crc_toNat {n : Nat} (hn : n ≤ 255) : (encode (.crc n)).toNat = 0x1000 + n := by
  have hword : encode (.crc n) = 0x10#8 ++ BitVec.ofNat 8 n := rfl
  have hlow : n % 2 ^ 8 = n := Nat.mod_eq_of_lt (by omega)
  rw [hword, BitVec.toNat_append, BitVec.toNat_ofNat, BitVec.toNat_ofNat, hlow, ← Nat.shiftLeft_add_eq_or_of_lt (by omega)]
  rfl

/-- A well-formed command's word matches the command's row. -/
theorem rowMatches_encode {i : Instr} (h : i.wellFormed = true) : RowMatches (encode i) i := by
  cases i with
  | crc n =>
    have hn : n ≤ 255 := of_decide_eq_true h
    exact (rowMatches_crc_iff _ n).mpr ⟨hn, encode_crc_toNat hn⟩
  | ldpc => rfl
  | map => rfl
  | encode => rfl

/-- A word that matches a command's row is that command's word. -/
theorem encode_of_rowMatches {w : Word} {i : Instr} (h : RowMatches w i) : i.wellFormed = true ∧ encode i = w := by
  cases i with
  | crc n =>
    obtain ⟨hn, hw⟩ := (rowMatches_crc_iff w n).mp h
    exact ⟨decide_eq_true hn, BitVec.eq_of_toNat_eq ((encode_crc_toNat hn).trans hw.symm)⟩
  | ldpc => exact ⟨rfl, h.symm.trans (and_fullMask w)⟩
  | map => exact ⟨rfl, h.symm.trans (and_fullMask w)⟩
  | encode => exact ⟨rfl, h.symm.trans (and_fullMask w)⟩

theorem decode_encode {i : Instr} (h : i.wellFormed = true) : decode (encode i) = .ok i :=
  decode_of_rowMatches (rowMatches_encode h)

/-- Settles O3: the rows of the opcode map and the words of the encoder are each other's inverse. -/
theorem decodeEncodeRoundTrip : Obligations.DecodeEncodeRoundTrip :=
  ⟨fun _ => decode_encode, fun _ _ h => encode_of_rowMatches (rowMatches_of_decode h)⟩

/-- Settles O1: the six words are those of well-formed commands. -/
theorem familyWordsDecode : Obligations.FamilyWordsDecode :=
  ⟨decode_encode (i := .crc 76) rfl, decode_encode (i := .crc 0) rfl, decode_encode (i := .crc 88) rfl,
    decode_encode (i := .ldpc) rfl, decode_encode (i := .map) rfl, decode_encode (i := .encode) rfl⟩

end Sys2Proof
end

section
/-! The data registers (10_state.md R11 to R15) and the record of what has been written since reset (70_reset_and_hazards.md R112).
A command changes only its write set, a host action changes them only as a register write while idle or as a reset, and a step is one
of the two. -/

namespace Sys2Proof.Machine

/-! ### What a command leaves unchanged (R10) -/

/-- A command that was accepted changes nothing outside its write set, on a written read set and on an unwritten one. -/
theorem exec_agreeOutsideWriteSet {i : Instr} {s t : State} (ha : accepted i = true) (h : exec i s = .next t) :
    AgreeOutsideWriteSet i t s := by
  have hpayload : ∀ x y b (hb : b < 9), ((s.msg.set 9 x).set 10 y)[b] = s.msg[b] := fun x y b hb => by
    simp [show 9 ≠ b by omega, show 10 ≠ b by omega]
  have hrecord : ∀ b (hb : b < 9), ((s.msgWritten.set 9 true).set 10 true)[b] = s.msgWritten[b] := fun b hb => by
    simp [show 9 ≠ b by omega, show 10 ≠ b by omega]
  rcases exec_cases h with ⟨n, rfl, -, -, rfl⟩ | ⟨n, rfl, hn, -⟩ | ⟨rfl, -, rfl⟩ | ⟨rfl, -, rfl⟩ | ⟨rfl, -, rfl⟩ | ⟨-, -, rfl⟩
  · simp [AgreeOutsideWriteSet]
  · have hr : accepted (.crc n) = false := (accepted_eq_false_iff _).mpr ⟨n, rfl, hn⟩
    rw [hr] at ha
    cases ha
  · simp [AgreeOutsideWriteSet]
  · simp [AgreeOutsideWriteSet]
  · simpa [AgreeOutsideWriteSet, packedFrame_eq] using fun b hb => ⟨hpayload _ _ b hb, hrecord b hb⟩
  · cases i with
    | encode => simpa [AgreeOutsideWriteSet] using fun b hb => ⟨hpayload _ _ b hb, hrecord b hb⟩
    | _ => simp [AgreeOutsideWriteSet]

/-- The statements' bound on the operand of `CRC` is the check made at issue (R48, R98). -/
theorem accepted_of_crc_le {i : Instr} (h : ∀ n, i = .crc n → n ≤ 88) : accepted i = true := by
  rw [← Bool.not_eq_false, accepted_eq_false_iff]
  rintro ⟨n, hi, hn⟩
  exact absurd (h n hi) (by omega)

/-- A data register that a completion changes is in the command's write set. -/
theorem exec_changed {i : Instr} {s t : State} (h : exec i s = .next t) :
    (t.rem ≠ s.rem → i = .encode ∨ ∃ n, i = .crc n) ∧ (t.tone ≠ s.tone → i = .encode ∨ i = .map) ∧
      (t.cw ≠ s.cw → i = .encode ∨ i = .ldpc) ∧ (t.msg ≠ s.msg → i = .encode) ∧ t.typeField = s.typeField := by
  rcases exec_cases h with ⟨n, rfl, -, -, rfl⟩ | ⟨n, rfl, -, rfl⟩ | ⟨rfl, -, rfl⟩ | ⟨rfl, -, rfl⟩ | ⟨rfl, -, rfl⟩ | ⟨-, -, rfl⟩
  · simp
  · simp
  · simp
  · simp
  · simp
  · cases i <;> simp

/-- What counts as written after a completion (R112): `ENCODE` adds bytes 9 and 10 of `MSG`, `LDPC` and `ENCODE` all of `CW`. -/
theorem exec_record {i : Instr} {s t : State} (h : exec i s = .next t) :
    (∀ k (hk : k < 11), t.msgWritten[k] = true ↔ s.msgWritten[k] = true ∨ (i = .encode ∧ 9 ≤ k)) ∧
      t.typeWritten = s.typeWritten ∧
      ∀ k (hk : k < 22), t.cwWritten[k] = true ↔ s.cwWritten[k] = true ∨ i = .ldpc ∨ i = .encode := by
  rcases exec_cases h with ⟨n, rfl, -, -, rfl⟩ | ⟨n, rfl, -, rfl⟩ | ⟨rfl, -, rfl⟩ | ⟨rfl, -, rfl⟩ | ⟨rfl, -, rfl⟩ | ⟨-, -, rfl⟩
  · simp
  · simp
  · simp
  · simp
  · simp [encodedRecord_getElem]
  · cases i <;> simp [encodedRecord_getElem]

/-! ### The data registers apart from the rest of the state -/

/-- The data registers and the record of what has been written are the same, whatever the error record, the control state and the
host's side are. -/
def SameData (s t : State) : Prop :=
  s.msg = t.msg ∧ s.typeField = t.typeField ∧ s.rem = t.rem ∧ s.cw = t.cw ∧ s.tone = t.tone ∧
    s.msgWritten = t.msgWritten ∧ s.typeWritten = t.typeWritten ∧ s.cwWritten = t.cwWritten

theorem SameData.readSetWritten_eq {s t : State} (h : SameData s t) (i : Instr) : readSetWritten i s = readSetWritten i t := by
  obtain ⟨-, -, -, -, -, hmw, htw, hcww⟩ := h
  exact readSetWritten_congr hmw htw hcww i

/-- On a written read set a command's effect on the data registers is a function of the data registers (R23). -/
theorem exec_sameData {i : Instr} {s t u v : State} (h : SameData s t) (hw : readSetWritten i s = true)
    (hu : exec i s = .next u) (hv : exec i t = .next v) : SameData u v := by
  have hw' : readSetWritten i t = true := (h.readSetWritten_eq i).symm.trans hw
  obtain ⟨hmsg, hty, hrem, hcw, htone, hmw, htw, hcww⟩ := h
  cases i with
  | crc n =>
    by_cases hn : n ≤ 88
    · rw [exec, execCrc_of_written hn hw] at hu
      rw [exec, execCrc_of_written hn hw'] at hv
      cases hu
      cases hv
      simp [SameData, *]
    · rw [exec, execCrc_of_gt (Nat.lt_of_not_le hn)] at hu hv
      cases hu
      cases hv
      simp [SameData, *]
  | ldpc =>
    rw [exec, execLdpc_of_written hw] at hu
    rw [exec, execLdpc_of_written hw'] at hv
    cases hu
    cases hv
    simp [SameData, *]
  | map =>
    rw [exec, execMap_of_written hw] at hu
    rw [exec, execMap_of_written hw'] at hv
    cases hu
    cases hv
    simp [SameData, *]
  | encode =>
    rw [exec, execEncode_of_written hw] at hu
    rw [exec, execEncode_of_written hw'] at hv
    cases hu
    cases hv
    have hframe : packedFrame s = packedFrame t := packedFrame_congr (fun _ _ => by rw [hmsg]) hty
    have hsum : frameChecksum s = frameChecksum t := frameChecksum_congr (fun _ _ => by rw [hmsg]) hty
    simp [SameData, *]

/-! ### What a host action and a step can do to the data registers -/

/-- A host action keeps every data register, unless it is a reset or a register write while idle. -/
theorem perform_sameData {a : HostAction} {s : State} (ha : a ≠ .reset) (hw : s.busy = true ∨ ∀ b v, a ≠ .wr b v) :
    SameData (perform a s) s := by
  cases a with
  | wr b v =>
    have hbusy : s.busy = true := hw.resolve_right fun h => h b v rfl
    simp [perform, hostWrite, hbusy, SameData]
  | rd b =>
    obtain ⟨c, d, hr⟩ := hostRead_eq b s
    simp [perform, hr, SameData]
  | cmd w =>
    rcases issue_cases w s with ⟨-, hi⟩ | ⟨-, -, hi⟩ | ⟨-, -, hi⟩ | ⟨-, i, -, -, hi⟩ <;> simp [perform, hi, SameData]
  | wait => cases hb : s.busy <;> simp [perform, hostWait, hb, SameData]
  | reset => exact absurd rfl ha

/-- A busy block stays busy with its command under every host action but a reset (R38). -/
theorem perform_of_busy {a : HostAction} {s : State} (ha : a ≠ .reset) (hbusy : s.busy = true) :
    (perform a s).busy = true ∧ (perform a s).cmdLatch = s.cmdLatch := by
  cases a with
  | wr b v => simp [perform, hostWrite, hbusy]
  | rd b =>
    obtain ⟨c, d, hr⟩ := hostRead_eq b s
    simp [perform, hr, hbusy]
  | cmd w => simp [perform, issue, hbusy]
  | wait => simp [perform, hostWait, hbusy]
  | reset => exact absurd rfl ha

theorem perform_wr_of_idle {s : State} (hidle : s.busy = false) (a v : Byte) : perform (.wr a v) s = writeReg a v s := by
  simp [perform, hostWrite, hidle]

/-- Everything a step can do to the data registers: the completion of a command, a register write while idle, a reset, nothing. -/
theorem step_data_cases {s t : State} (h : step s = .next t) :
    (blockMoves s = true ∧ s.busy = true ∧ ∃ i, decode s.cmdLatch = .ok i ∧ exec i s = .next t) ∨
    (blockMoves s = false ∧ s.busy = false ∧ ∃ a v rest, s.script = .wr a v :: rest ∧ t = writeReg a v (afterAction s rest)) ∨
    (blockMoves s = false ∧ ∃ rest, s.script = .reset :: rest ∧ t = resetBlock (afterAction s rest)) ∨
    (blockMoves s = false ∧ (∀ rest, s.script ≠ .reset :: rest) ∧
      (s.busy = true ∨ ∀ a v rest, s.script ≠ .wr a v :: rest) ∧ SameData t s) := by
  rcases step_cases h with hblock | ⟨hb, hs, -, rfl⟩ | ⟨hb, a, rest, hs, rfl⟩
  · exact .inl hblock
  · exact .inr (.inr (.inr ⟨hb, by simp [hs], .inr (by simp [hs]), by simp [SameData]⟩))
  · by_cases hreset : a = .reset
    · subst hreset
      exact .inr (.inr (.inl ⟨hb, rest, hs, rfl⟩))
    · by_cases hw : s.busy = true ∨ ∀ b v, a ≠ .wr b v
      · have hdata : SameData (perform a (afterAction s rest)) (afterAction s rest) := perform_sameData hreset hw
        refine .inr (.inr (.inr ⟨hb, by simp [hs, hreset], hw.imp_right fun hne b v rest' he => ?_, hdata⟩))
        rw [hs] at he
        exact hne b v (List.cons.inj he).1
      · rw [not_or, Bool.not_eq_true] at hw
        obtain ⟨hidle, hwr⟩ := hw
        obtain ⟨b, v, rfl⟩ : ∃ b v, a = .wr b v := by simpa using hwr
        exact .inr (.inl ⟨hb, hidle, b, v, rest, hs, perform_wr_of_idle (s := afterAction s rest) hidle b v⟩)

/-! ### What a register write does to the data registers -/

theorem portOf_eq_msg_iff (a : Byte) {k : Nat} (hk : k < 11) : portOf a = .msg ⟨k, hk⟩ ↔ a = BitVec.ofNat 8 k := by
  rw [portOf_msg]
  bv_omega

theorem portOf_eq_typeField_iff (a : Byte) : portOf a = .typeField ↔ a = 0x0B#8 := by
  rw [portOf_typeField]
  bv_omega

theorem portOf_eq_cw_iff (a : Byte) {k : Nat} (hk : k < 22) : portOf a = .cw ⟨k, hk⟩ ↔ a = BitVec.ofNat 8 (0x10 + k) := by
  rw [portOf_cw]
  bv_omega

/-- A register write that changes `MSG`, `CW` or `TYPE` is one to an address of that register (R34). -/
theorem writeReg_changed (a v : Byte) (s : State) :
    ((writeReg a v s).msg ≠ s.msg → a.toNat ≤ 0x0A) ∧
      ((writeReg a v s).cw ≠ s.cw → 0x10 ≤ a.toNat ∧ a.toNat ≤ 0x25) ∧
      ((writeReg a v s).typeField ≠ s.typeField → a = 0x0B#8) := by
  rcases writeReg_cases a v s with ⟨k, hp, hw⟩ | ⟨hp, hw⟩ | ⟨k, hp, hw⟩ | ⟨-, -, -, hw⟩ <;> rw [hw]
  · rw [portOf_msg] at hp
    exact ⟨fun _ => by omega, fun h => absurd rfl h, fun h => absurd rfl h⟩
  · rw [portOf_eq_typeField_iff] at hp
    exact ⟨fun h => absurd rfl h, fun h => absurd rfl h, fun _ => hp⟩
  · rw [portOf_cw] at hp
    exact ⟨fun h => absurd rfl h, fun _ => by omega, fun h => absurd rfl h⟩
  · exact ⟨fun h => absurd rfl h, fun h => absurd rfl h, fun h => absurd rfl h⟩

/-- A register write makes the written byte count as written, and no other (R112). -/
theorem writeReg_record (a v : Byte) (s : State) :
    (∀ k (hk : k < 11), (writeReg a v s).msgWritten[k] = true ↔ s.msgWritten[k] = true ∨ a = BitVec.ofNat 8 k) ∧
      ((writeReg a v s).typeWritten = true ↔ s.typeWritten = true ∨ a = 0x0B#8) ∧
      ∀ k (hk : k < 22), (writeReg a v s).cwWritten[k] = true ↔ s.cwWritten[k] = true ∨ a = BitVec.ofNat 8 (0x10 + k) := by
  refine ⟨fun k hk => ?_, ?_, fun k hk => ?_⟩
  · rw [← portOf_eq_msg_iff a hk, writeReg]
    cases hp : portOf a <;> simp [Vector.getElem_set, Fin.ext_iff, or_comm]
  · rw [← portOf_eq_typeField_iff, writeReg]
    cases hp : portOf a <;> simp
  · rw [← portOf_eq_cw_iff a hk, writeReg]
    cases hp : portOf a <;> simp [Vector.getElem_set, Fin.ext_iff, or_comm]

/-! ### The obligations -/

/-- Settles O38: a completion changes its write set alone, a register write its own register, and every other host action but a reset
none. -/
theorem dataRegistersChangeOnlyByTheirWriters : Obligations.DataRegistersChangeOnlyByTheirWriters := by
  intro s t h hnoreset
  rcases step_data_cases h with ⟨hb, -, i, hd, he⟩ | ⟨-, hidle, a, v, rest, hs, rfl⟩ | ⟨hb, rest, hs, -⟩ | ⟨-, -, -, hdata⟩
  · obtain ⟨hrem, htone, hcw, hmsg, hty⟩ := exec_changed he
    rw [hd]
    simp only [Except.ok.injEq]
    exact ⟨fun hc => ⟨hb, hrem hc⟩, fun hc => ⟨hb, htone hc⟩, fun hc => .inl ⟨hb, hcw hc⟩, fun hc => .inl ⟨hb, hmsg hc⟩,
      fun hc => absurd hty hc⟩
  · obtain ⟨hmsg, hcw, hty⟩ := writeReg_changed a v (afterAction s rest)
    refine ⟨fun hc => absurd (writeReg_rem a v _) hc, fun hc => absurd (writeReg_tone a v _) hc,
      fun hc => .inr ⟨hidle, a, v, rest, hs, hcw hc⟩, fun hc => .inr ⟨hidle, a, v, rest, hs, hmsg hc⟩,
      fun hc => ⟨hidle, v, rest, ?_⟩⟩
    rw [hs, hty hc]
  · rcases hnoreset with hb' | hne
    · rw [hb] at hb'
      cases hb'
    · exact absurd hs (hne rest)
  · obtain ⟨hmsg, hty, hrem, hcw, htone, -⟩ := hdata
    exact ⟨fun hc => absurd hrem hc, fun hc => absurd htone hc, fun hc => absurd hcw hc, fun hc => absurd hmsg hc,
      fun hc => absurd hty hc⟩

/-- Settles O40: the record after a step is that after a completion, a register write or a reset, or the one before. -/
theorem writtenRecordFollowsWrites : Obligations.WrittenRecordFollowsWrites := by
  intro s t h
  rcases step_data_cases h with ⟨hb, hbusy, i, hd, he⟩ | ⟨hb, hidle, a, v, rest, hs, rfl⟩ | ⟨hb, rest, hs, rfl⟩ |
      ⟨hb, hreset, hwr, -, -, -, -, -, hmw, htw, hcww⟩
  · obtain ⟨hmw, htw, hcww⟩ := exec_record he
    exact ⟨by simp [hb], fun _ => ⟨fun k hk => by simp [hmw k hk, hb, hbusy, hd], by simp [htw, hbusy],
      fun k hk => by simp [hcww k hk, hb, hbusy, hd]⟩⟩
  · obtain ⟨hmw, htw, hcww⟩ := writeReg_record a v (afterAction s rest)
    exact ⟨by simp [hs], fun _ => ⟨fun k hk => by simp [hmw k hk, hb, hidle, hs], by simp [htw, hidle, hs],
      fun k hk => by simp [hcww k hk, hb, hidle, hs]⟩⟩
  · exact ⟨fun _ _ _ => by simp, fun hne => by simp [hb, hs] at hne⟩
  · have hidle : ∀ a, ¬ (s.busy = false ∧ ∃ v rest, s.script = .wr a v :: rest) := by
      rintro a ⟨hidle, v, rest, hs⟩
      rcases hwr with hbusy | hne
      · rw [hidle] at hbusy
        cases hbusy
      · exact hne a v rest hs
    exact ⟨fun rest _ hs => absurd hs (hreset rest), fun _ => ⟨fun k hk => by simp [hmw, hidle, hb], by simp [htw, hidle],
      fun k hk => by simp [hcww, hidle, hb]⟩⟩

/-- Settles O9: the host's action keeps the command and the data registers, and on equal data registers a command has one result. -/
theorem busyAccessLeavesCommandAlone : Obligations.BusyAccessLeavesCommandAlone := by
  intro s t a rest hbusy hrem hs ha h
  rw [step_of_not_blockMoves (blockMoves_of_remaining hrem hs), hostMove_cons hs] at h
  cases h
  have hbusy' : (afterAction s rest).busy = true := hbusy
  obtain ⟨hb, hlatch⟩ := perform_of_busy ha hbusy'
  have hdata : SameData (perform a (afterAction s rest)) s := perform_sameData ha (.inl hbusy')
  refine ⟨⟨hb, hlatch, ?_⟩, fun i => ⟨hdata.readSetWritten_eq i, fun u v hw hu hv => ?_⟩⟩
  · obtain ⟨hmsg, hty, hrem, hcw, htone, -⟩ := hdata
    exact ⟨hmsg, hty, hrem, hcw, htone⟩
  · obtain ⟨hmsg, hty, hrem, hcw, htone, -⟩ := exec_sameData hdata ((hdata.readSetWritten_eq i).trans hw) hv hu
    exact ⟨hmsg, hty, hrem, hcw, htone⟩

end Sys2Proof.Machine
end

section
/-! The invariant and the host that waits (10_state.md R14, R16, R17, 70_reset_and_hazards.md R113): each part of a step keeps them,
the completion of the latched command as well as each host action. -/

namespace Sys2Proof.Machine

/-! ### The state invariant -/

/-- The codeword buffer after a command: the one before, a codeword, or a free value. -/
theorem exec_cw_cases {i : Instr} {s t : State} (h : exec i s = .next t) :
    t.cw = s.cw ∨ (∃ msg, t.cw = codewordOf msg) ∨ ∃ d, t.cw = freeCodeword d := by
  rcases exec_cases h with ⟨n, -, -, -, rfl⟩ | ⟨n, -, -, rfl⟩ | ⟨-, -, rfl⟩ | ⟨-, -, rfl⟩ | ⟨-, -, rfl⟩ | ⟨-, -, rfl⟩
  · exact .inl (complete_cw _)
  · exact .inl (complete_cw _)
  · exact .inr (.inl ⟨_, complete_cw _⟩)
  · exact .inl (complete_cw _)
  · exact .inr (.inl ⟨_, (complete_cw _).trans (markEncoded_cw _)⟩)
  · rw [complete_cw, unspecifiedResult_cw]
    cases i with
    | crc n => exact .inl rfl
    | ldpc => exact .inr (.inr ⟨_, rfl⟩)
    | map => exact .inl rfl
    | encode => exact .inr (.inr ⟨_, rfl⟩)

/-- Every codeword a command writes has its hardwired bits 0 (R14, R74). -/
theorem codewordPadZero_exec {i : Instr} {s t : State} (h : exec i s = .next t) (hpad : CodewordPadZero s) :
    CodewordPadZero t := by
  unfold CodewordPadZero at hpad ⊢
  rcases exec_cw_cases h with hcw | ⟨msg, hcw⟩ | ⟨d, hcw⟩ <;> rw [hcw]
  · exact hpad
  · exact ⟨getBit_codewordOf_pad msg (by decide), getBit_codewordOf_pad msg (by decide)⟩
  · exact ⟨getBit_freeCodeword_pad d (by decide), getBit_freeCodeword_pad d (by decide)⟩

/-- A reset state meets the invariant, whatever its draw (R25). -/
theorem inv_afterReset (d : Nat) (script : List HostAction) (results : List Byte) : (State.afterReset d script results).Inv :=
  ⟨⟨getBit_freeCodeword_pad d (by decide), getBit_freeCodeword_pad d (by decide)⟩, ⟨fun _ => rfl, fun _ => rfl⟩,
    fun h => by cases h⟩

/-- The record of an error keeps the invariant. -/
theorem State.Inv.raiseErr {s : State} (h : s.Inv) {c : ErrCode} (hc : c ≠ .none) : (raiseErr c s).Inv := by
  obtain ⟨hpad, herr, hlatch⟩ := h
  refine ⟨hpad, ?_, hlatch⟩
  unfold ErrorRecordConsistent at herr ⊢
  cases he : s.err with
  | false => simp [he, hc]
  | true => simpa [he] using herr

/-- An idle block's register write keeps the invariant. -/
theorem State.Inv.writeReg {s : State} (h : s.Inv) (a v : Byte) : (writeReg a v s).Inv := by
  obtain ⟨hpad, herr, hlatch⟩ := h
  refine ⟨codewordPadZero_writeReg a v hpad, ?_, ?_⟩
  · simpa [ErrorRecordConsistent] using herr
  · simpa [LatchHoldsCommand] using hlatch

/-- The completion of an accepted command keeps the invariant: it leaves the block idle and the error record alone. -/
theorem State.Inv.exec {s t : State} (h : s.Inv) {i : Instr} (ha : accepted i = true) (he : exec i s = .next t) : t.Inv := by
  obtain ⟨hpad, herr, -⟩ := h
  obtain ⟨hkeep, hcode⟩ := exec_errorRecord he (.inl ha)
  obtain ⟨hidle, -⟩ := exec_control he
  refine ⟨codewordPadZero_exec he hpad, ?_, fun hbusy => ?_⟩
  · rwa [ErrorRecordConsistent, hkeep, hcode]
  · rw [hidle] at hbusy
    cases hbusy

/-- Every host action keeps the invariant; only an accepted command word makes the block busy, and it is latched (R48). -/
theorem State.Inv.perform {s : State} (h : s.Inv) (a : HostAction) : (perform a s).Inv := by
  cases a with
  | wr a v =>
    rw [Machine.perform, hostWrite]
    split
    · exact h.raiseErr (by decide)
    · exact h.writeReg a v
  | rd a =>
    obtain ⟨b, d, hr⟩ := hostRead_eq a s
    rw [Machine.perform, hr]
    exact ⟨h.codewordPad, h.errorRecord, h.latch⟩
  | cmd w =>
    rw [Machine.perform]
    rcases issue_cases w s with ⟨-, hi⟩ | ⟨-, -, hi⟩ | ⟨-, -, hi⟩ | ⟨-, i, hd, ha, hi⟩ <;> rw [hi]
    · exact h.raiseErr (by decide)
    · exact h.raiseErr (by decide)
    · exact h.raiseErr (by decide)
    · exact ⟨h.codewordPad, h.errorRecord, fun _ => ⟨i, hd, ha⟩⟩
  | wait =>
    rw [Machine.perform, hostWait]
    split
    · exact ⟨h.codewordPad, h.errorRecord, h.latch⟩
    · exact h
  | reset => exact inv_afterReset _ _ _

/-- Settles O49: the reset state is the reset of draw 0. -/
theorem resetMeetsInvariant : Obligations.ResetMeetsInvariant := inv_afterReset 0 [] []

/-- Settles O50: the block's part is the completion of an accepted command, the host's part an action that keeps the invariant. -/
theorem stepKeepsInvariant : Obligations.StepKeepsInvariant := by
  intro s hinv
  cases hb : blockMoves s with
  | true =>
    have hbusy : s.busy = true := (Bool.and_eq_true_iff.mp hb).1
    obtain ⟨i, hd, ha⟩ := hinv.latch hbusy
    obtain ⟨t, ht⟩ := exec_total i s
    refine ⟨t, ?_, hinv.exec ha ht⟩
    rw [step_of_blockMoves hb, blockStep, hd, ← ht]
  | false =>
    refine ⟨hostMove s, step_of_not_blockMoves hb, ?_⟩
    cases hs : s.script with
    | nil => rwa [hostMove_nil hs]
    | cons a rest =>
      have hafter : (afterAction s rest).Inv := ⟨hinv.codewordPad, hinv.errorRecord, hinv.latch⟩
      rw [hostMove_cons hs]
      exact hafter.perform a

/-! ### The host that waits (R113) -/

theorem waitsForIdle_cmd {w : Word} {script : List HostAction} (h : WaitsForIdle (.cmd w :: script) = true) :
    ∃ rest, (script = .wait :: rest ∨ script = .reset :: rest) ∧ WaitsForIdle rest = true := by
  cases script with
  | nil => cases h
  | cons a rest =>
    cases a with
    | wait => exact ⟨rest, .inl rfl, h⟩
    | reset => exact ⟨rest, .inr rfl, h⟩
    | _ => cases h

/-- The script that follows a `CMD` begins with `WAIT` or `RESET`, so it waits even where the command is not accepted. -/
theorem waitsForIdle_of_wait_or_reset {script rest : List HostAction} (hs : script = .wait :: rest ∨ script = .reset :: rest)
    (hw : WaitsForIdle rest = true) : WaitsForIdle script = true := by
  rcases hs with rfl | rfl
  · exact hw
  · exact hw

theorem issue_script (w : Word) (s : State) : (issue w s).script = s.script := by
  rcases issue_cases w s with ⟨-, hi⟩ | ⟨-, -, hi⟩ | ⟨-, -, hi⟩ | ⟨-, i, -, -, hi⟩ <;> simp [hi]

/-- An action of a waiting host on an idle block: after a `CMD` the script begins with `WAIT` or `RESET`, and every other action leaves
the block idle. -/
theorem hostWaits_perform_of_idle {a : HostAction} {s : State} (hidle : s.busy = false)
    (hw : WaitsForIdle (a :: s.script) = true) : HostWaits (perform a s) := by
  cases a with
  | cmd w =>
    obtain ⟨rest, hs, hrest⟩ := waitsForIdle_cmd hw
    rw [← issue_script w s] at hs
    rw [perform]
    cases hb : (issue w s).busy with
    | true => exact .inr ⟨hb, rest, hs, hrest⟩
    | false => exact .inl ⟨hb, waitsForIdle_of_wait_or_reset hs hrest⟩
  | wr b v =>
    refine .inl ?_
    rw [perform_wr_of_idle hidle, writeReg_busy, writeReg_script]
    exact ⟨hidle, hw⟩
  | rd b =>
    refine .inl ?_
    rw [perform, hostRead_of_idle hidle]
    exact ⟨hidle, hw⟩
  | wait =>
    refine .inl ?_
    rw [perform, hostWait, if_neg (by simp [hidle])]
    exact ⟨hidle, hw⟩
  | reset => exact .inl ⟨rfl, hw⟩

/-- `WAIT` and `RESET`, the actions of a waiting host on a busy block, keep it waiting. -/
theorem hostWaits_perform_of_busy {a : HostAction} {s : State} (hbusy : s.busy = true) (ha : a = .wait ∨ a = .reset)
    (hw : WaitsForIdle s.script = true) : HostWaits (perform a s) := by
  rcases ha with rfl | rfl
  · rw [perform, hostWait, if_pos hbusy]
    exact .inr ⟨hbusy, s.script, .inl rfl, hw⟩
  · exact .inl ⟨rfl, hw⟩

/-- Every step keeps the host waiting. -/
theorem hostWaits_step {s t : State} (hs : HostWaits s) (h : step s = .next t) : HostWaits t := by
  rcases step_cases h with ⟨-, hbusy, i, -, he⟩ | ⟨-, -, -, rfl⟩ | ⟨-, a, rest, hscript, rfl⟩
  · obtain ⟨hidle, -, -, -, -, hkeep, -⟩ := exec_control he
    rcases hs with ⟨hb, -⟩ | ⟨-, rest, hrest, hw⟩
    · rw [hb] at hbusy
      cases hbusy
    · exact .inl ⟨hidle, waitsForIdle_of_wait_or_reset (by rwa [hkeep]) hw⟩
  · exact hs
  · rcases hs with ⟨hb, hw⟩ | ⟨hb, rest', hrest, hw⟩
    · rw [hscript] at hw
      exact hostWaits_perform_of_idle (s := afterAction s rest) hb hw
    · simp only [hscript, List.cons.injEq] at hrest
      obtain ⟨ha, rfl⟩ := or_and_right.mpr hrest
      exact hostWaits_perform_of_busy (s := afterAction s rest) hb ha hw

/-- The refusal of R99 is the step that raises `BUSY_VIOLATION`. -/
theorem refusedAsBusy_iff (s : State) : RefusedAsBusy s ↔ stepError s = some .busyViolation := by
  rw [stepError_eq_busyViolation_iff, RefusedAsBusy]
  constructor
  · rintro ⟨hbusy, hb, ⟨w, rest, hs⟩ | ⟨a, v, rest, hs⟩⟩
    · exact ⟨hbusy, hb, rest, .inl ⟨w, hs⟩⟩
    · exact ⟨hbusy, hb, rest, .inr ⟨a, v, hs⟩⟩
  · rintro ⟨hbusy, hb, rest, ⟨w, hs⟩ | ⟨a, v, hs⟩⟩
    · exact ⟨hbusy, hb, .inl ⟨w, rest, hs⟩⟩
    · exact ⟨hbusy, hb, .inr ⟨a, v, rest, hs⟩⟩

/-- A busy block's waiting host has `WAIT` or `RESET` next, which no block refuses. -/
theorem HostWaits.not_refusedAsBusy {s : State} (h : HostWaits s) : ¬ RefusedAsBusy s := by
  rintro ⟨hbusy, -, hs⟩
  rcases h with ⟨hb, -⟩ | ⟨-, rest, hrest, -⟩
  · rw [hb] at hbusy
    cases hbusy
  · rcases hrest with hrest | hrest <;> simp [hrest] at hs

/-- A completion records no error but `CRC_LEN` (log 13). -/
theorem exec_errCode {i : Instr} {s t : State} (h : exec i s = .next t) : t.errCode = s.errCode ∨ t.errCode = .crcLen := by
  by_cases hkeep : accepted i = true ∨ s.err = true
  · exact .inl (exec_errorRecord h hkeep).2
  · obtain ⟨hr, herr⟩ := not_or.mp hkeep
    obtain ⟨n, rfl, hn⟩ := (accepted_eq_false_iff i).mp (Bool.not_eq_true _ ▸ hr)
    rw [exec, execCrc_of_gt hn] at h
    cases h
    exact .inr (by simp [herr])

/-- A step that refuses nothing as busy does not record `BUSY_VIOLATION` (R99). -/
theorem errCode_of_not_refusedAsBusy {s t : State} (h : step s = .next t) (hr : ¬ RefusedAsBusy s)
    (ht : t.errCode = .busyViolation) : s.errCode = .busyViolation := by
  rcases step_cases h with ⟨-, -, i, -, he⟩ | ⟨-, -, -, rfl⟩ | ⟨hb, a, rest, hs, rfl⟩
  · rcases exec_errCode he with hkeep | hcrc
    · exact hkeep.symm.trans ht
    · rw [hcrc] at ht
      cases ht
  · exact ht
  · rw [refusedAsBusy_iff, stepError_cons hb hs] at hr
    cases hc : raisedBy s.busy a with
    | some c =>
      have hne : c ≠ .busyViolation := fun he => hr (by rw [hc, he])
      rw [perform_of_raised (s := afterAction s rest) hc, raiseErr_errCode, afterAction_err, afterAction_errCode] at ht
      cases herr : s.err with
      | true => simpa [herr] using ht
      | false => exact absurd (by simpa [herr] using ht) hne
    | none =>
      by_cases hreset : a = .reset
      · rw [hreset] at ht
        cases ht
      · rw [(perform_of_not_raised (s := afterAction s rest) hc hreset).2] at ht
        exact ht

/-- Settles O17: a step keeps the host waiting, and a waiting host's action is none that a busy block refuses. -/
theorem waitingHostIsNeverRefusedAsBusy : Obligations.WaitingHostIsNeverRefusedAsBusy := fun _ _ hs h =>
  ⟨hostWaits_step hs h, hs.not_refusedAsBusy, errCode_of_not_refusedAsBusy h hs.not_refusedAsBusy⟩

end Sys2Proof.Machine
end

section
/-! Issue, completion and `WAIT` (30_encoding.md R48, R52): what one step of an idle block is, what the block's own step is, and that a
`WAIT` behind an accepted command ends with the command done. -/

namespace Sys2Proof.Machine

/-! ### One step (R32, R48) -/

/-- Settles O12: the block's own step decodes the latch. -/
theorem stepRunsLatchedCommand : Obligations.StepRunsLatchedCommand := by
  intro s i hbusy hnext hd
  rw [step_of_blockMoves ((blockMoves_of_busy hbusy).mpr hnext), blockStep, hd]

/-- Settles O13: neither the block nor the host has a move. -/
theorem idleBlockStands : Obligations.IdleBlockStands := by
  rintro s ⟨hs, hidle⟩
  rw [step_of_not_blockMoves (blockMoves_of_idle hidle), hostMove_nil hs]

/-- Settles O14: every branch of a command answers a next state, and completes. -/
theorem everyCommandCompletes : Obligations.EveryCommandCompletes := by
  intro i s
  obtain ⟨t, ht⟩ := exec_total i s
  obtain ⟨hidle, -⟩ := exec_control ht
  exact ⟨t, ht, hidle⟩

/-- An accepted command word presented while idle is the next step, and sets the block running (R48). -/
theorem step_cmd_of_accepted {s : State} {w : Word} {i : Instr} {rest : List HostAction} (hidle : s.busy = false)
    (hs : s.script = .cmd w :: rest) (hd : decode w = .ok i) (ha : accepted i = true) :
    step s = .next (accept w i (afterAction s rest)) := by
  have hidle' : (afterAction s rest).busy = false := hidle
  rw [step_cmd_of_idle hidle hs, issue_of_accepted hidle' hd ha]

/-- Settles O6: the step accepts the word. -/
theorem acceptedCommandIsLatched : Obligations.AcceptedCommandIsLatched := fun _ _ _ _ hidle hs hd hi =>
  step_cmd_of_accepted hidle hs hd (accepted_of_crc_le hi)

/-- Settles O8: the host moves, and a busy read adds the true `STATUS` or a free byte to the results. -/
theorem busyReadOfStatusIsTrue : Obligations.BusyReadOfStatusIsTrue := by
  intro s a rest hbusy hrem hs
  have hbusy' : (afterAction s rest).busy = true := hbusy
  have hstep : step s = .next (hostRead a (afterAction s rest)) := by
    rw [step_of_not_blockMoves (blockMoves_of_remaining hrem hs), hostMove_cons hs, perform]
  refine ⟨fun ha => ?_, fun ha => ⟨Config.busyByte s.draws, ?_⟩⟩
  · subst ha
    rw [hstep, hostRead, if_neg (by simp)]
    rfl
  · rw [hstep, hostRead, if_pos ⟨hbusy', ha⟩]
    rfl

/-- Settles O46: on an idle block the step is the host's action. -/
theorem idleHostActions : Obligations.IdleHostActions := by
  intro s rest hidle
  have hidle' : (afterAction s rest).busy = false := hidle
  refine ⟨fun a v hs => ?_, fun a hs => ?_, fun hs => ?_⟩
  · rw [step_of_idle hidle hs, perform_wr_of_idle hidle']
  · have hbyte : readReg (afterAction s rest) a = readReg s a := readReg_congr rfl rfl rfl rfl rfl rfl a
    rw [step_of_idle hidle hs, perform, hostRead_of_idle hidle', hbyte]
    rfl
  · rw [step_of_idle hidle hs, perform, hostWait, if_neg (by simp [hidle])]

/-! ### Reset (R25, R110, R111) -/

/-- `STATUS` of a block that is idle with a clear record. -/
theorem readReg_status_of_clear {s : State} (hidle : s.busy = false) (herr : s.err = false) (hcode : s.errCode = .none) :
    readReg s 0x0C#8 = 0x00#8 := by
  have hread : readReg s 0x0C#8 = statusByte s := rfl
  rw [hread, statusByte, hidle, herr, hcode]
  rfl

/-- Settles O47: the host moves, and a reset leaves the reset state of its draw with the host's side kept. -/
theorem resetAbandonsCommand : Obligations.ResetAbandonsCommand := by
  intro s rest hmove hs
  have hb : blockMoves s = false := hmove.elim blockMoves_of_idle fun hrem => blockMoves_of_remaining hrem hs
  refine ⟨resetBlock (afterAction s rest), ?_, rfl, rfl, rfl, readReg_status_of_clear rfl rfl rfl,
    (inv_afterReset _ _ _).codewordPad, rfl, rfl⟩
  rw [step_of_not_blockMoves hb, hostMove_cons hs, perform]

/-- A tone reads zero-extended (R15). -/
theorem zeroExtendedTone_and : ∀ t : Tone, (t.setWidth 8 : Byte) &&& 0xF8#8 = 0#8 := by decide

/-- Settles O48: the control state is 0, `CW` is masked, and a tone has three bits. -/
theorem resetStateIsIdleAndClear : Obligations.ResetStateIsIdleAndClear := by
  refine ⟨rfl, rfl, rfl, readReg_status_of_clear rfl rfl rfl, resetMeetsInvariant.codewordPad, fun j => ?_⟩
  have haddr : portOf (BitVec.ofNat 8 (0x30 + j)) = .tone j := by
    rw [portOf_tone, BitVec.toNat_ofNat]
    omega
  rw [readReg_of_tone _ haddr, zeroExtendedTone_and]

/-! ### `WAIT` behind a command (R52, R113, R117) -/

/-- Settles O15: the polls fall before the completion, and a command does not see how many were left. -/
theorem waitEndsWithCommandDone : Obligations.WaitEndsWithCommandDone := by
  intro s rest hlatch hbusy hs
  obtain ⟨i, hd, -⟩ := hlatch hbusy
  obtain ⟨u, hu⟩ := exec_total i s
  obtain ⟨v, hv⟩ := exec_total i { s with remaining := 0 }
  obtain ⟨hidle, -, -, -, -, -, hres⟩ := exec_control hv
  have hreg : SameRegisters { s with remaining := 0 } s := by simp [SameRegisters]
  have hvu : SameRegisters v u := exec_sameRegisters hreg (.inr rfl) hv hu
  exact ⟨i, { v with script := rest }, u, hd, hu, run_wait_of_busy hbusy hs hd hv, hidle, rfl, hres, hvu⟩

/-- An accepted `CMD` and the `WAIT` behind it from an idle block, whatever the latency: the run ends with the completion from a state
that has the registers of the start. -/
theorem run_cmd_wait {s : State} {w : Word} {i : Instr} {rest : List HostAction} (hidle : s.busy = false)
    (hs : s.script = .cmd w :: .wait :: rest) (hd : decode w = .ok i) (ha : accepted i = true) :
    ∃ (k : Nat) (r v : State), SameRegisters r s ∧ r.results = s.results ∧ exec i r = .next v ∧
      core.run k s = Host.Outcome.next { v with script := rest } := by
  let t := accept w i (afterAction s (.wait :: rest))
  have hissue : step s = .next t := step_cmd_of_accepted hidle hs hd ha
  obtain ⟨v, hv⟩ := exec_total i { t with remaining := 0 }
  refine ⟨1 + (t.remaining + 2), { t with remaining := 0 }, v, by simp [SameRegisters, t], rfl, hv, ?_⟩
  exact (run_add _ (run_one hissue)).trans (run_wait_of_busy rfl rfl hd hv)

/-- The registers outside a command's write set are compared with those of any state that has the same registers. -/
theorem AgreeOutsideWriteSet.of_sameRegisters {i : Instr} {v r s : State} (h : AgreeOutsideWriteSet i v r)
    (hr : SameRegisters r s) : AgreeOutsideWriteSet i v s := by
  obtain ⟨hmsg, hty, hrem, hcw, htone, ⟨hmw, htw, hcww⟩, herr, hcode⟩ := hr
  simpa only [AgreeOutsideWriteSet, hmsg, hty, hrem, hcw, htone, hmw, htw, hcww, herr, hcode] using h

/-- Settles O16: the run ends with the completion from the registers before the issue. -/
theorem commandThenWaitActsAtOnce : Obligations.CommandThenWaitActsAtOnce := by
  intro s w i rest hidle hs hd hi
  have ha := accepted_of_crc_le hi
  obtain ⟨u, hu⟩ := exec_total i s
  obtain ⟨k, r, v, hr, hres, hv, hrun⟩ := run_cmd_wait hidle hs hd ha
  obtain ⟨hvidle, -, -, -, -, -, hvres⟩ := exec_control hv
  have hagree : AgreeOutsideWriteSet i v s := (exec_agreeOutsideWriteSet ha hv).of_sameRegisters hr
  have hvu : readSetWritten i s = true → SameRegisters v u :=
    fun hw => exec_sameRegisters hr (.inl ((hr.readSetWritten_eq i).trans hw)) hv hu
  exact ⟨k, { v with script := rest }, u, hu, hrun, hvidle, rfl, hvres.trans hres, hagree, hvu⟩

end Sys2Proof.Machine
end

section
/-! Consequences for frames (41_ldpc.md R78, 42_frame.md R90): each bit of payload and type is a bit of the codeword, so it is seen in
the data symbol it lies in; and the frame of a zero payload and type is zero. -/

namespace Sys2Proof.Machine

/-- Settles O28: the result of `LDPC` is a function of its read set, which ends before the pad bit. -/
theorem ldpcIgnoresPadBit : Obligations.LdpcIgnoresPadBit := fun s s' t t' hw hw' hbits h h' =>
  resultsDependOnReadSetOnly .ldpc s s' t t' hw hw' h h' hbits

/-! ### Input bits in the tones (R90 (d), (f)) -/

/-- Payload and type stand at the head of the packed frame (R80). -/
theorem getBit_packedFrame_input (s : State) {j : Nat} (hj : j < 75) : getBit (packedFrame s) j = frameInputBit s j := by
  unfold frameInputBit
  split_ifs with h
  · exact getBit_packedFrame_payload s h
  · have htype := getBit_packedFrame_type s (i := j - 72) (by omega)
    rwa [show 72 + (j - 72) = j by omega, show 2 - (j - 72) = 74 - j by omega] at htype

/-- The data symbol in which information bit `j` of the codeword lies. -/
abbrev inputSymbol (j : Fin 75) : Nat := (Config.colOrder ⟨87 + j, by omega⟩).val / 3

theorem inputSymbol_lt (j : Fin 75) : inputSymbol j < 58 := by
  have hcol := (Config.colOrder ⟨87 + j, by omega⟩).isLt
  exact Nat.div_lt_of_lt_mul hcol

/-- Frames with the same data symbol have the same input bit in it. -/
theorem frameInputBit_eq_of_dataSymbol_eq {s s' : State} (j : Fin 75)
    (h : dataSymbol (codewordOf (packedFrame s)) (inputSymbol j) = dataSymbol (codewordOf (packedFrame s')) (inputSymbol j)) :
    frameInputBit s j = frameInputBit s' j := by
  have hcode : ∀ r, getBit (codewordOf (packedFrame r)) (Config.colOrder ⟨87 + j, by omega⟩) = frameInputBit r j := fun r => by
    rw [getBit_codewordOf_information _ ⟨j, by omega⟩, getBit_packedFrame_input r j.isLt]
  rw [← hcode s, ← hcode s']
  exact getBit_eq_of_dataSymbol_eq h

/-- A byte is a function of its eight stream bits (R30). -/
theorem getElem_eq_of_getBit_eq {len : Nat} {a b : Buffer len} {k : Nat} (hk : k < len)
    (h : ∀ i, i / 8 = k → getBit a i = getBit b i) : a[k] = b[k] := by
  refine BitVec.eq_of_getLsbD_eq fun j hj => ?_
  have hbit := h (8 * k + (7 - j)) (by omega)
  unfold getBit at hbit
  rwa [show (8 * k + (7 - j)) / 8 = k by omega, show 7 - (8 * k + (7 - j)) % 8 = j by omega, getD_of_lt _ hk,
    getD_of_lt _ hk] at hbit

/-- Payload and type are read off the input bits (R80). -/
theorem eq_of_frameInputBit_eq {s s' : State} (h : ∀ j : Fin 75, frameInputBit s j = frameInputBit s' j) :
    (∀ b (hb : b < 9), s.msg[b] = s'.msg[b]) ∧ s.typeField = s'.typeField := by
  refine ⟨fun b hb => getElem_eq_of_getBit_eq _ fun i hi => ?_, BitVec.eq_of_getLsbD_eq fun i hi => ?_⟩
  · have hlt : i < 72 := by omega
    simpa [frameInputBit, hlt] using h ⟨i, by omega⟩
  · have hbit := h ⟨74 - i, by omega⟩
    simpa [frameInputBit, show ¬ 74 - i < 72 by omega, show 74 - (74 - i) = i by omega] using hbit

/-- Settles O34: the input bit is a codeword bit in that symbol, and all input bits determine payload and type. -/
theorem encodeInputBitChangesItsTone : Obligations.EncodeInputBitChangesItsTone := by
  intro s s' t t' hw hw' h h'
  rw [exec, execEncode_of_written hw] at h
  rw [exec, execEncode_of_written hw'] at h'
  cases h
  cases h'
  simp only [complete_tone, markEncoded_tone]
  refine ⟨fun j hne heq => hne (frameInputBit_eq_of_dataSymbol_eq j ?_), fun heq => eq_of_frameInputBit_eq fun j =>
    frameInputBit_eq_of_dataSymbol_eq j ?_⟩
  · rwa [tonemap_toList_data _ 0 (inputSymbol_lt j), tonemap_toList_data _ 0 (inputSymbol_lt j)] at heq
  · rw [← tonemap_toList_data _ 0 (inputSymbol_lt j), heq, tonemap_toList_data _ 0 (inputSymbol_lt j)]

/-! ### The zero frame (R90 (e), (g)) -/

/-- The pad bit and the checksum's bit 0 are the two low bits of byte 10 (R64 (f), R83). -/
theorem packedFrame_lastByte_and (s : State) : (packedFrame s)[10] &&& 0x03#8 = 0#8 := by
  have heven : (frameChecksum s).toNat % 2 = 0 := by
    have hbit : (frameChecksum s).getLsbD 0 = false := crc12_getLsbD_zero _
    rw [BitVec.getLsbD, Nat.testBit_zero] at hbit
    have := of_decide_eq_false hbit
    omega
  have hbyte : (packedFrame s)[10] = (frameChecksum s).setWidth 8 <<< 1 := by simp [packedFrame_eq]
  have hmask : ((packedFrame s)[10] &&& 0x03#8).toNat = (packedFrame s)[10].toNat % 4 :=
    Nat.and_two_pow_sub_one_eq_mod _ 2
  apply BitVec.eq_of_toNat_eq
  rw [hmask, hbyte, checksumLow_toNat, BitVec.toNat_ofNat]
  omega

section ZeroFrame
variable {s : State} (hpay : ∀ i, i < 72 → getBit s.msg i = false) (hty : s.typeField = 0#3)
include hpay hty

theorem frameChecksum_of_zero : frameChecksum s = 0#12 := by
  have hlead : leadingBits s.msg 72 = List.replicate 72 false :=
    List.eq_replicate_iff.mpr ⟨leadingBits_length _ _, by simpa [leadingBits] using hpay⟩
  have hbits : frameBits s.msg s.typeField = List.replicate 76 false := by
    rw [frameBits, hlead, hty]
    rfl
  rw [frameChecksum_eq, hbits, crc12_replicate_false]

/-- Each of the four ranges of the packed frame is zero: payload, type, checksum and pad. -/
theorem packedFrame_of_zero : packedFrame s = zeroBuffer 11 := by
  refine buffer_ext fun i hi => ?_
  rw [getBit_zeroBuffer]
  by_cases h72 : i < 72
  · rw [getBit_packedFrame_payload s h72, hpay i h72]
  by_cases h75 : i < 75
  · rw [show i = 72 + (i - 72) by omega, getBit_packedFrame_type s (by omega), hty, BitVec.getLsbD_zero]
  by_cases h87 : i < 87
  · rw [show i = 75 + (i - 75) by omega, getBit_packedFrame_checksum s (by omega), frameChecksum_of_zero hpay hty,
      BitVec.getLsbD_zero]
  · rw [show i = 87 by omega, getBit_packedFrame_pad]

end ZeroFrame

theorem codewordOf_zero : codewordOf (zeroBuffer 11) = zeroBuffer 22 := by
  have hinfo : infoWord (zeroBuffer 11) = 0#87 := bitVec_eq_of_getMsbD fun j _ => by simp [infoWord_getMsbD]
  rw [codewordOf, hinfo]
  exact ldpc174_zero Config.gen Config.colOrder

theorem dataSymbol_zero (k : Nat) : dataSymbol (zeroBuffer 22) k = 0 := by
  simp [dataSymbol]

/-- Settles O35: byte 10 ends in the checksum's bit 0 and the pad, and a zero frame has zero checksum, codeword and symbols. -/
theorem zeroFrameAndPadBits : Obligations.ZeroFrameAndPadBits := by
  refine fun s hw => ⟨_, execEncode_of_written hw, packedFrame_lastByte_and s, fun hpay hty => ?_⟩
  have hmsg : packedFrame s = zeroBuffer 11 := packedFrame_of_zero hpay hty
  have hcw : codewordOf (packedFrame s) = zeroBuffer 22 := by rw [hmsg, codewordOf_zero]
  exact ⟨hmsg, frameChecksum_of_zero hpay hty, hcw, fun k hk => (tonemap_toList_data _ 7 hk).trans (by rw [hcw, dataSymbol_zero])⟩

end Sys2Proof.Machine
end

section
/-! What a command leaves readable (10_state.md R10, R16, 20_memory.md R35), and its result on a written and on an unwritten read set
(40_crc12.md R63, 70_reset_and_hazards.md R112). -/

namespace Sys2Proof.Machine

/-! ### Results of a command (R63, R112) -/

/-- An accepted command on an unwritten read set leaves the unspecified result (R112). -/
theorem exec_of_unwritten {i : Instr} {s : State} (ha : accepted i = true) (hw : readSetWritten i s = false) :
    exec i s = .next (complete (unspecifiedResult i s)) := by
  cases i with
  | crc n => exact execCrc_of_unwritten (of_decide_eq_true ha) hw
  | ldpc => exact execLdpc_of_unwritten hw
  | map => exact execMap_of_unwritten hw
  | encode => exact execEncode_of_unwritten hw

/-- Settles O39: the record decides bytewise, and an unwritten read set gives the free values of the draw. -/
theorem unwrittenReadSetGivesUnspecifiedResult : Obligations.UnwrittenReadSetGivesUnspecifiedResult := by
  refine ⟨fun s => ⟨fun n hn => readSetWritten_crc hn s, readSetWritten_ldpc s, readSetWritten_map s, readSetWritten_encode s⟩,
    fun i s hi hw => ?_⟩
  have ha := accepted_of_crc_le hi
  have hu := exec_of_unwritten ha hw
  refine ⟨_, hu, complete_busy _, exec_agreeOutsideWriteSet ha hu, ?_⟩
  cases i with
  | crc n => rw [complete_rem, unspecifiedResult_rem]
  | ldpc => rw [complete_cw, unspecifiedResult_cw]
  | map => rw [complete_tone, unspecifiedResult_tone]
  | encode => simp

/-- Settles O21: the leading bits of `MSG` are its stream bits as R30 numbers them; the latch is kept and the counter is 0. -/
theorem crcWritesRemOnly : Obligations.CrcWritesRemOnly := by
  refine fun s n hn hw => ⟨s.cmdLatch, 0, ?_⟩
  have hbits : leadingBits s.msg n = (List.range n).map fun i => (s.msg.toList.getD (i / 8) 0#8).getLsbD (7 - i % 8) := by
    simp [leadingBits, getBit, Vector.getD, List.getD_eq_getElem?_getD]
  rw [exec, execCrc_of_written hn hw, complete, hbits]

/-- Settles O22: the branch of a refused count records the error and completes. -/
theorem overlongCrcNeverWritesRem : Obligations.OverlongCrcNeverWritesRem := by
  intro s n hn
  rw [exec, execCrc_of_gt hn, raiseErr_eq_withError, complete]

/-! ### What the register port reads after a command (R10) -/

/-- An address other than that of `STATUS` reads as before if the register behind it is as before. -/
theorem readReg_eq_of_register_eq {s t : State} {a : Byte} (hstatus : a ≠ 0x0C#8)
    (hmsg : ∀ b (hb : b < 11), a.toNat = b → t.msg[b] = s.msg[b]) (hty : t.typeField = s.typeField)
    (hrem : a = 0x0E#8 ∨ a = 0x0F#8 → t.rem = s.rem) (hcw : 0x10 ≤ a.toNat ∧ a.toNat ≤ 0x25 → t.cw = s.cw)
    (htone : 0x30 ≤ a.toNat ∧ a.toNat ≤ 0x7E → t.tone = s.tone) : readReg t a = readReg s a := by
  unfold readReg
  cases hp : portOf a with
  | msg b => exact hmsg b b.isLt ((portOf_msg a b).mp hp)
  | typeField => simp only [hty]
  | status => exact absurd (BitVec.eq_of_toNat_eq ((portOf_status a).mp hp)) hstatus
  | remHigh => simp only [hrem (.inl (BitVec.eq_of_toNat_eq ((portOf_remHigh a).mp hp)))]
  | remLow => simp only [hrem (.inr (BitVec.eq_of_toNat_eq ((portOf_remLow a).mp hp)))]
  | cw b =>
    rw [portOf_cw] at hp
    simp only [hcw (by omega)]
  | tone j =>
    rw [portOf_tone] at hp
    simp only [htone (by omega)]
  | reserved => rfl

/-- Settles O36: the registers outside the write set agree, and an address outside it names one of them. -/
theorem commandsWriteOnlyTheirRegisters : Obligations.CommandsWriteOnlyTheirRegisters := by
  intro i s t hi h
  have ha := accepted_of_crc_le hi
  obtain ⟨hidle, -, hty, -, hlatch, hscript, hres⟩ := exec_control h
  obtain ⟨herr, hcode⟩ := exec_errorRecord h (.inl ha)
  refine ⟨⟨herr, hcode, hty, hlatch, hscript, hres, hidle⟩, fun a hstatus haddr => ?_⟩
  obtain ⟨-, -, -, -, hpay, hrest⟩ := exec_agreeOutsideWriteSet ha h
  cases i with
  | crc n =>
    obtain ⟨hmsg, hcw, htone, -⟩ := hrest
    obtain ⟨h0E, h0F⟩ := haddr
    exact readReg_eq_of_register_eq hstatus (fun _ _ _ => by rw [hmsg]) hty (fun h => (h.elim h0E h0F).elim) (fun _ => hcw)
      fun _ => htone
  | ldpc =>
    obtain ⟨hmsg, hrem, htone, -⟩ := hrest
    exact readReg_eq_of_register_eq hstatus (fun _ _ _ => by rw [hmsg]) hty (fun _ => hrem) (fun h => absurd h haddr)
      fun _ => htone
  | map =>
    obtain ⟨hmsg, hrem, hcw, -⟩ := hrest
    exact readReg_eq_of_register_eq hstatus (fun _ _ _ => by rw [hmsg]) hty (fun _ => hrem) (fun _ => hcw)
      fun h => absurd h haddr
  | encode =>
    obtain ⟨h09, h0A, h0E, h0F, hcw, htone⟩ := haddr
    refine readReg_eq_of_register_eq hstatus (fun b hb hab => (hpay b ?_).1) hty (fun h => (h.elim h0E h0F).elim)
      (fun h => absurd h hcw) fun h => absurd h htone
    have h9 : a.toNat ≠ 9 := fun h => h09 (BitVec.eq_of_toNat_eq h)
    have h10 : a.toNat ≠ 10 := fun h => h0A (BitVec.eq_of_toNat_eq h)
    omega

/-! ### `REM` and `STATUS` at the port (R16, R35) -/

/-- Settles O44: each bit of the pair comes from the byte it lies in. -/
theorem remReadsMostSignificantFirst : Obligations.RemReadsMostSignificantFirst := by
  intro s
  rw [readReg_remHigh, readReg_remLow]
  refine BitVec.eq_of_getLsbD_eq fun i hi => ?_
  rw [BitVec.getLsbD_append]
  by_cases h8 : i < 8
  · simp [h8, hi]
  · simp [h8, show i < 16 by omega, show i - 8 < 8 by omega, show 8 + (i - 8) = i by omega]

/-- The parts of `STATUS`, bit 0 up (R16). -/
theorem statusByte_bits (s : State) :
    (statusByte s).getLsbD 0 = s.busy ∧ (statusByte s).getLsbD 1 = s.err ∧ (statusByte s).toNat / 4 = s.errCode.bits.toNat := by
  unfold statusByte
  generalize s.errCode.bits = code
  generalize s.err = err
  generalize s.busy = busy
  revert code err busy
  decide

/-- Settles O45: `STATUS` is the concatenation of its parts, and the pins are two of them. -/
theorem statusRegisterBits : Obligations.StatusRegisterBits := by
  intro s
  obtain ⟨hbusy, herr, hcode⟩ := statusByte_bits s
  refine ⟨hbusy, herr, hcode.trans ?_, rfl, rfl⟩
  cases s.errCode <;> rfl

end Sys2Proof.Machine
end

section
/-! Several blocks beside each other (60_exceptions.md R106) and host scripts (30_encoding.md R51, R52). -/

namespace Sys2Proof.Machine

/-- Settles O51: a step answers the list with the stepping block replaced. -/
theorem instancesAreIndependent : Obligations.InstancesAreIndependent := by
  intro j all all' h
  unfold stepAmong at h
  cases hj : all[j]? with
  | none =>
    rw [hj] at h
    cases h
    exact ⟨fun _ _ => rfl, fun s hs => by cases hs⟩
  | some r =>
    rw [hj] at h
    cases hr : step r with
    | next t =>
      simp only [hr] at h
      cases h
      refine ⟨fun k hk => List.getElem?_set_ne hk.symm, fun s hs => ⟨t, ?_, ?_⟩⟩
      · cases hs
        exact hr
      · exact List.getElem?_set_self (List.getElem?_eq_some_iff.mp hj).1
    | fault e => simp only [hr] at h; cases h
    | refused e => simp only [hr] at h; cases h

/-! ### Expansions (R52) -/

theorem writeFrom_getElem? {len : Nat} (base : Nat) (b : Buffer len) {k : Nat} (hk : k < len) :
    (writeFrom base b.toList)[k]? = some (.wr (BitVec.ofNat 8 (base + k)) b[k]) := by
  simp [writeFrom, hk]

theorem writeFrom_length {len : Nat} (base : Nat) (b : Buffer len) : (writeFrom base b.toList).length = len := by
  simp [writeFrom]

theorem readFrom_getElem? (base : Nat) {count k : Nat} (hk : k < count) :
    (readFrom base count)[k]? = some (.rd (BitVec.ofNat 8 (base + k))) := by
  simp [readFrom, hk]

theorem readFrom_length (base count : Nat) : (readFrom base count).length = count := by
  simp [readFrom]

/-- Settles O52: the expansions are writes and reads of consecutive addresses, and `ENC` their concatenation. -/
theorem pseudoInstructionsExpand : Obligations.PseudoInstructionsExpand := by
  refine ⟨fun b k hk => (writeFrom_getElem? 0x00 b hk).trans (by rw [Nat.zero_add]),
    fun b k hk => (writeFrom_getElem? 0x00 b hk).trans (by rw [Nat.zero_add]), fun b k hk => writeFrom_getElem? 0x10 b hk,
    writeFrom_length 0x00, writeFrom_length 0x00, writeFrom_length 0x10, fun k hk => readFrom_getElem? 0x30 hk,
    fun k hk => readFrom_getElem? 0x10 hk, fun k hk => (readFrom_getElem? 0x00 hk).trans (by rw [Nat.zero_add]),
    ⟨readFrom_length 0x30 79, readFrom_length 0x10 22, readFrom_length 0x00 11⟩, rfl, fun _ => rfl, fun b t => ?_⟩
  simp [ScriptLine.expand]

/-! ### The assembler (R51) -/

/-- The one line an assembler refuses. -/
theorem assembles_eq_false_iff (line : ScriptLine) : line.assembles = false ↔ ∃ n, 255 < n ∧ line = .command (.crc n) := by
  cases line with
  | command i => cases i <;> simp [ScriptLine.assembles, Instr.wellFormed]
  | _ => simp [ScriptLine.assembles]

/-- Settles O53: a script assembles when every line does. -/
theorem assemblerRefusesOversizedCrc : Obligations.AssemblerRefusesOversizedCrc := by
  refine ⟨fun lines => ?_, fun _ => rfl⟩
  have hnone : assemble lines = none ↔ ∃ line ∈ lines, line.assembles = false := by simp [assemble]
  simp only [hnone, assembles_eq_false_iff]
  constructor
  · rintro ⟨_, hmem, n, hn, rfl⟩
    exact ⟨n, hn, hmem⟩
  · rintro ⟨n, hn, hmem⟩
    exact ⟨_, hmem, n, hn, rfl⟩

end Sys2Proof.Machine
end
